-- ==== Sys2Proof/Word.lean ====
section
/-! DEFINITION. The word types of the block: bytes of the slave registers and command fields, 32-bit counter and tick
words (`CW = TW = 32`, 00_scope.md R6), 64-bit command and response words (30_encoding.md R50). -/

namespace Sys2Proof

/-- An 8-bit byte: a slave register, a whole-byte command field, a duty. -/
abbrev Byte := BitVec 8

/-- A 32-bit word: `COUNT` (width `CW`), `TICK` and the times (width `TW`), response data. -/
abbrev Word := BitVec 32

/-- A 64-bit command word `CMD[63:0]` (30_encoding.md R50). -/
abbrev CmdWord := BitVec 64

/-- A 64-bit response word `RSP[63:0]` (30_encoding.md R53). -/
abbrev RspWord := BitVec 64

end Sys2Proof
end

