-- ==== Sys2Proof/Config.lean ====
section
/-! DEFINITION. What an implementation fixes and what the environment leaves free: the parameters of 00_scope.md R6, the
kinds of environment, the environment's moves and answers, and the free values as constants without a body. -/

namespace Sys2Proof

/-- A slave key `(bus, addr7)`: it names one slave (20_memory.md R31). -/
structure Key where
  bus  : Byte
  addr : BitVec 7
  deriving DecidableEq, Repr, Inhabited

/-- What WRFLD does when its read phase fails (00_scope.md R6, `RMW_ON_READ_FAIL`). -/
inductive RmwOnReadFail where
  | abort
  | proceedWithZero
  deriving DecidableEq, Repr, Inhabited

/-- The parameters of 00_scope.md R6 that a claim may range over. `nbus`, `devTab` and `legalRegs` are OPEN in the spec;
the others have a default there. -/
structure Params where
  /-- `NBUS`, the number of bus ports (OPEN, 1 to 4: `Params.legal`). -/
  nbus : Nat
  /-- `DEVTAB[1..NDEV]`, `NDEV = 5`: entry `i` of the vector is device `i + 1`, on a port below `NBUS`
  (10_state.md R18; OPEN; `Params.legal`). -/
  devTab : Vector Key 5
  /-- `LEGAL_REGS`, the closed set of register addresses the codec may reach (20_memory.md R32; OPEN). -/
  legalRegs : List Byte
  /-- `ENC_INC_LEVEL`, the level of ENC_B at which an edge increments (false is level 0, the default). -/
  encIncLevel : Bool
  /-- `RMW_ON_READ_FAIL`, default `abort`. -/
  rmwOnReadFail : RmwOnReadFail
  /-- `BUS_READ_RESTART`, default true: a read joins its two phases by a repeated START (40_bus_master.md R74). -/
  busReadRestart : Bool
  deriving DecidableEq, Repr, Inhabited

/-- Why a transaction ended with `ok = false` (40_bus_master.md R75). The block reports the boolean only. -/
inductive FailCause where
  /-- No slave answered the (first) address byte. -/
  | nackAddress
  /-- The slave did not acknowledge the register byte. -/
  | nackRegister
  /-- The slave did not acknowledge the data byte of a write, or the second address byte of a read. -/
  | nackLast
  /-- Any other condition the port detects; the spec does not enumerate them. -/
  | other
  deriving DecidableEq, Repr, Inhabited

/-- The environment's answer to one bus transaction (20_memory.md R33): it completed (with the byte a read returns), or
it failed; `landed` says whether a failed write nevertheless reached the register (20_memory.md R37). DESIGN CHOICE, safe:
`landed` is free for every cause, a refusal before the data byte among them (log entry 5). -/
inductive BusReply where
  | done (byte : Byte)
  | fail (cause : FailCause) (landed : Bool)
  deriving DecidableEq, Repr, Inhabited

/-- Which agent takes the next step (10_state.md R26). -/
inductive Turn where
  /-- The block's own turn: the sequencer while an operation is in progress, else the host. -/
  | block
  /-- `Edge(b)`: a rising edge of ENC_A while ENC_B has the level `b` (42_encoder_tracker.md R90). -/
  | edge (b : Bool)
  /-- One millisecond has passed (60_exceptions.md R169). -/
  | tick
  /-- The slave at `key` changes its register `reg` to `v` by itself (20_memory.md R38). -/
  | slave (key : Key) (reg v : Byte)
  deriving DecidableEq, Repr, Inhabited

/-- The two environments of 20_memory.md: `real`, of which nothing is known (R33), and `bench`, the simulator slave with
no event but those already on the agenda (R34). -/
inductive Env where
  | real
  | bench
  deriving DecidableEq, Repr, Inhabited

namespace Config

/-- `REV_PULSES`: pulses per motor-shaft revolution (00_scope.md R6). -/
def revPulses : Nat := 16

/-- `PPR`: pulses per output-shaft revolution (00_scope.md R6). -/
def ppr : Nat := 17920

/-- `ROT_TIMEOUT_MS` (00_scope.md R6). -/
def rotTimeoutMs : Word := 1000#32

/-- `DUTY_MAX`: the maximum and the braking duty (00_scope.md R6). -/
def dutyMax : Byte := 255#8

/-- How many bus ports the machine has beyond the first (OPEN; log entry 6). -/
opaque furtherPorts : Fin 4

/-- `NBUS` of the machine after reset: 1 to 4 (00_scope.md R6). -/
def nbus : Nat := furtherPorts.val + 1

/-- The wiring of the devices; its bus numbers count round the ports (OPEN; log entry 6). -/
opaque wiring : Vector Key 5

/-- The device at `k`, on a port below `NBUS` (10_state.md R18). -/
def onPort (k : Key) : Key := { k with bus := BitVec.ofNat 8 (k.bus.toNat % nbus) }

/-- `DEVTAB` of the machine after reset: every entry's bus is below `NBUS` (10_state.md R18; log entry 6). -/
def devTab : Vector Key 5 := wiring.map onPort

/-- `LEGAL_REGS` of the machine after reset (OPEN; log entry 6). -/
opaque legalRegs : List Byte

/-- `T_START` after reset: unspecified (10_state.md R27; log entry 8). -/
opaque tStartAtReset : Word

/-- `T_MODEL` after reset: unspecified (10_state.md R27; log entry 8). -/
opaque tModelAtReset : Word

/-- `DUTY[0]` after reset: unspecified (10_state.md R27; log entry 8). -/
opaque duty0AtReset : Byte

/-- `DUTY[1]` after reset: unspecified (10_state.md R27; log entry 8). -/
opaque duty1AtReset : Byte

/-- `TICK` after reset: whatever the environment holds (10_state.md R13; log entry 9). -/
opaque tickAtReset : Word

/-- The real environment's answer to a transaction, drawn with the draw counter (20_memory.md R33; log entry 2). -/
opaque busReply : Nat → BusReply

/-- Which agent moves next in the real environment, drawn with the draw counter (10_state.md R20, R26; log entry 1). -/
opaque turn : Nat → Turn

/-- What a cell of a simulator slave holds before it is first written (20_memory.md R34; log entry 4). -/
opaque slavePowerUp : Nat → Byte

end Config

end Sys2Proof
end

