-- ==== Sys2Proof/Syntax.lean ====
section
/-! DEFINITION. The operations of the block, one constructor per row of spec/opcode_table.json, and the pseudo-operations
of 30_encoding.md R61. -/

namespace Sys2Proof

/-- An operation with its operands, each the unsigned value of its command field (30_encoding.md R51, R52). Operand bytes
are unchecked here; `Instr.WellFormed` is the check of R55. -/
inductive Instr where
  /-- BWR: bus write of one byte (40_bus_master.md R71). -/
  | bwr (bus addr reg data : Byte)
  /-- BRD: bus read of one byte (40_bus_master.md R72). -/
  | brd (bus addr reg : Byte)
  /-- RDREG: read one register of a device (41_register_codec.md R81). -/
  | rdreg (dev reg : Byte)
  /-- WRFLD: write a bit-field by read-modify-write (41_register_codec.md R82). -/
  | wrfld (dev reg mask bits shift : Byte)
  /-- ENCRD: snapshot of the pulse counter (42_encoder_tracker.md R93). -/
  | encrd
  /-- ENCCLR: clear the pulse counter (42_encoder_tracker.md R94). -/
  | encclr
  /-- TMARK: record the modelling start time (42_encoder_tracker.md R95). -/
  | tmark
  /-- TMRD: read the recorded modelling interval (42_encoder_tracker.md R96). -/
  | tmrd
  /-- MODERD: read the operating mode (42_encoder_tracker.md R97). -/
  | moderd
  /-- MODEWR: write the operating mode (42_encoder_tracker.md R98). -/
  | modewr (mode : Byte)
  /-- ROT: rotate by an angle in UQ16.16 degrees (43_rotation_controller.md R112). -/
  | rot (cw speed : Byte) (angle : Word)
  /-- PWMWR: set one duty (43_rotation_controller.md R111). -/
  | pwmwr (ch duty : Byte)
  deriving DecidableEq, Repr

/-- The pseudo-operations of 30_encoding.md R61. -/
inductive Pseudo where
  | brake
  | coast
  | modelbegin
  | wrreg (dev reg v : Byte)
  deriving DecidableEq, Repr

end Sys2Proof
end

