-- ==== Sys2Proof/WellFormed.lean ====
section
/-! DEFINITION. The ranges of the parameters (00_scope.md R6, 10_state.md R18), and the operand ranges of 30_encoding.md
R55, check (3) of R57: a command whose operands are outside them is answered `ILLEGAL_OPERAND`. The device id and the legal register set are checks (4) and (5) and stand in
Machine/Operands.lean. -/

namespace Sys2Proof

/-- The ranges of the parameters: 1 to 4 bus ports, every device of the table on one of them (00_scope.md R6,
10_state.md R18). -/
def Params.legal (p : Params) : Bool :=
  1 ≤ p.nbus && p.nbus ≤ 4 && p.devTab.toList.all (fun k => k.bus.toNat < p.nbus)

/-- The operand ranges of 30_encoding.md R55 under the parameters `p`. Every byte is legal for `reg`, `data`, `mask`,
`bits`, `duty`, `speed` and, at this check, `dev`. -/
def Instr.WellFormed (p : Params) : Instr → Bool
  | .bwr bus addr _ _      => bus.toNat < p.nbus && addr.toNat < 0x80
  | .brd bus addr _        => bus.toNat < p.nbus && addr.toNat < 0x80
  | .rdreg _ _             => true
  | .wrfld _ _ _ _ shift   => shift.toNat < 8
  | .encrd                 => true
  | .encclr                => true
  | .tmark                 => true
  | .tmrd                  => true
  | .moderd                => true
  | .modewr mode           => mode.toNat < 6
  | .rot cw _ _            => cw.toNat < 2
  | .pwmwr ch _            => ch.toNat < 2

end Sys2Proof
end

