-- ==== Sys2Proof/Decode.lean ====
section
/-! DEFINITION. Decoding a command word (30_encoding.md R54, R56) and, after it, encoding an operation (R51), the opcode
table as the spec prints it (R54), and the expansion of the pseudo-operations (R61). -/

namespace Sys2Proof

/-- The byte `w[lo+7:lo]` of a command word. -/
def fieldByte (w : CmdWord) (lo : Nat) : Byte := w.extractLsb' lo 8

/-- Whether the `zero` field `w[n-1:0]` is all 0. -/
def lowZero (w : CmdWord) (n : Nat) : Bool := w.extractLsb' 0 n == 0#n

/-- Why a word decodes to no operation; both cases are answered `ILLEGAL_CMD` (30_encoding.md R56). -/
inductive DecodeError where
  /-- The opcode byte is not one of the twelve: check (1) of R57. -/
  | undefinedOpcode
  /-- A `zero` field of the opcode's format holds a 1: check (2) of R57. -/
  | nonZeroField
  deriving DecidableEq, Repr

/-- The operation when the format's zero fields are zero. -/
def whenZero (z : Bool) (i : Instr) : Except DecodeError Instr :=
  if z then .ok i else .error .nonZeroField

/-- The twelve opcodes of 30_encoding.md R54. -/
inductive Opcode where
  | bwr
  | brd
  | rdreg
  | wrfld
  | encrd
  | encclr
  | tmark
  | tmrd
  | moderd
  | modewr
  | rot
  | pwmwr
  deriving DecidableEq, Repr

/-- The opcodes in the order of the opcode map. -/
def Opcode.all : List Opcode :=
  [.bwr, .brd, .rdreg, .wrfld, .encrd, .encclr, .tmark, .tmrd, .moderd, .modewr, .rot, .pwmwr]

/-- The opcode byte (30_encoding.md R54). -/
def Opcode.byte : Opcode → Byte
  | .bwr    => 0x10#8
  | .brd    => 0x11#8
  | .rdreg  => 0x20#8
  | .wrfld  => 0x21#8
  | .encrd  => 0x30#8
  | .encclr => 0x31#8
  | .tmark  => 0x32#8
  | .tmrd   => 0x33#8
  | .moderd => 0x34#8
  | .modewr => 0x35#8
  | .rot    => 0x40#8
  | .pwmwr  => 0x41#8

/-- The opcode a byte names; none for an undefined one: check (1) of 30_encoding.md R57. -/
def opcodeOf (b : Byte) : Option Opcode := Opcode.all.find? (fun o => o.byte == b)

/-- Reads the operand fields of a word whose opcode is known; check (2) of 30_encoding.md R57. -/
def decodeFields (w : CmdWord) (o : Opcode) : Except DecodeError Instr :=
  let b48 := fieldByte w 48
  let b40 := fieldByte w 40
  let b32 := fieldByte w 32
  let b24 := fieldByte w 24
  let b16 := fieldByte w 16
  match o with
  | .bwr    => whenZero (lowZero w 24) (.bwr b48 b40 b32 b24)
  | .brd    => whenZero (lowZero w 32) (.brd b48 b40 b32)
  | .rdreg  => whenZero (lowZero w 40) (.rdreg b48 b40)
  | .wrfld  => whenZero (lowZero w 16) (.wrfld b48 b40 b32 b24 b16)
  | .encrd  => whenZero (lowZero w 56) .encrd
  | .encclr => whenZero (lowZero w 56) .encclr
  | .tmark  => whenZero (lowZero w 56) .tmark
  | .tmrd   => whenZero (lowZero w 56) .tmrd
  | .moderd => whenZero (lowZero w 56) .moderd
  | .modewr => whenZero (lowZero w 48) (.modewr b48)
  | .rot    => whenZero (b32 == 0#8) (.rot b48 b40 (w.extractLsb' 0 32))
  | .pwmwr  => whenZero (lowZero w 40) (.pwmwr b48 b40)

/-- Decodes a command word: total on all 2^64 words (30_encoding.md R51, R54, R56). -/
def decode (w : CmdWord) : Except DecodeError Instr :=
  match opcodeOf (fieldByte w 56) with
  | none   => .error .undefinedOpcode
  | some o => decodeFields w o

/-- The opcode of an operation. -/
def Instr.op : Instr → Opcode
  | .bwr _ _ _ _        => .bwr
  | .brd _ _ _          => .brd
  | .rdreg _ _          => .rdreg
  | .wrfld _ _ _ _ _    => .wrfld
  | .encrd              => .encrd
  | .encclr             => .encclr
  | .tmark              => .tmark
  | .tmrd               => .tmrd
  | .moderd             => .moderd
  | .modewr _           => .modewr
  | .rot _ _ _          => .rot
  | .pwmwr _ _          => .pwmwr

/-- The opcode byte of an operation (30_encoding.md R54). -/
def Instr.opcode (i : Instr) : Byte := i.op.byte

/-- The command word of an operation: its format's fields from bit 63 down (30_encoding.md R51). -/
def encode (i : Instr) : CmdWord :=
  match i with
  | .bwr bus addr reg data           => i.opcode ++ bus ++ addr ++ reg ++ data ++ 0#24
  | .brd bus addr reg                => i.opcode ++ bus ++ addr ++ reg ++ 0#32
  | .rdreg dev reg                   => i.opcode ++ dev ++ reg ++ 0#40
  | .wrfld dev reg mask bits shift   => i.opcode ++ dev ++ reg ++ mask ++ bits ++ shift ++ 0#16
  | .encrd                           => i.opcode ++ 0#56
  | .encclr                          => i.opcode ++ 0#56
  | .tmark                           => i.opcode ++ 0#56
  | .tmrd                            => i.opcode ++ 0#56
  | .moderd                          => i.opcode ++ 0#56
  | .modewr mode                     => i.opcode ++ mode ++ 0#48
  | .rot cw speed angle              => i.opcode ++ cw ++ speed ++ 0#8 ++ angle
  | .pwmwr ch duty                   => i.opcode ++ ch ++ duty ++ 0#40

/-- One row of the opcode map of 30_encoding.md R54: the required value and the mask of the bits compared. -/
structure OpcodeRow where
  mnemonic : String
  value    : CmdWord
  mask     : CmdWord
  deriving DecidableEq, Repr

/-- The opcode map as 30_encoding.md R54 prints it. -/
def opcodeTable : List OpcodeRow := [
  ⟨"BWR",    0x1000000000000000#64, 0xFF00000000FFFFFF#64⟩,
  ⟨"BRD",    0x1100000000000000#64, 0xFF000000FFFFFFFF#64⟩,
  ⟨"RDREG",  0x2000000000000000#64, 0xFF0000FFFFFFFFFF#64⟩,
  ⟨"WRFLD",  0x2100000000000000#64, 0xFF0000000000FFFF#64⟩,
  ⟨"ENCRD",  0x3000000000000000#64, 0xFFFFFFFFFFFFFFFF#64⟩,
  ⟨"ENCCLR", 0x3100000000000000#64, 0xFFFFFFFFFFFFFFFF#64⟩,
  ⟨"TMARK",  0x3200000000000000#64, 0xFFFFFFFFFFFFFFFF#64⟩,
  ⟨"TMRD",   0x3300000000000000#64, 0xFFFFFFFFFFFFFFFF#64⟩,
  ⟨"MODERD", 0x3400000000000000#64, 0xFFFFFFFFFFFFFFFF#64⟩,
  ⟨"MODEWR", 0x3500000000000000#64, 0xFF00FFFFFFFFFFFF#64⟩,
  ⟨"ROT",    0x4000000000000000#64, 0xFF0000FF00000000#64⟩,
  ⟨"PWMWR",  0x4100000000000000#64, 0xFF0000FFFFFFFFFF#64⟩]

/-- The mnemonic of an operation, as the opcode map spells it. -/
def Instr.mnemonic : Instr → String
  | .bwr _ _ _ _     => "BWR"
  | .brd _ _ _       => "BRD"
  | .rdreg _ _       => "RDREG"
  | .wrfld _ _ _ _ _ => "WRFLD"
  | .encrd           => "ENCRD"
  | .encclr          => "ENCCLR"
  | .tmark           => "TMARK"
  | .tmrd            => "TMRD"
  | .moderd          => "MODERD"
  | .modewr _        => "MODEWR"
  | .rot _ _ _       => "ROT"
  | .pwmwr _ _       => "PWMWR"

/-- Whether a word matches a row: `(w & mask) = match` (30_encoding.md R54). -/
def OpcodeRow.matchesWord (r : OpcodeRow) (w : CmdWord) : Bool := w &&& r.mask == r.value

/-- What the decoder reads from the table's word `w` of `nbits` bits: one command word, its bits above `nbits` zero. -/
def decodeTableWord (nbits w : Nat) : Option Instr :=
  match decode (BitVec.ofNat 64 (w % 2 ^ nbits)) with
  | .ok i    => some i
  | .error _ => none

/-- The commands a pseudo-operation stands for, in the order they are issued (30_encoding.md R61). -/
def Pseudo.expand : Pseudo → List Instr
  | .brake          => [.pwmwr 0#8 255#8, .pwmwr 1#8 255#8]
  | .coast          => [.pwmwr 0#8 0#8, .pwmwr 1#8 0#8]
  | .modelbegin     => [.tmark, .encclr, .modewr 2#8]
  | .wrreg dev reg v => [.wrfld dev reg 0x00#8 v 0#8]

end Sys2Proof
end

