-- ==== Sys2Proof/Machine/State.lean ====
section
/-! DEFINITION. The state of the block and of its environment as plain data (10_state.md), the reasons a step can stop,
and the state right after reset (10_state.md R27, 70_reset_and_hazards.md R190). -/

namespace Sys2Proof.Machine

/-- The phase of the operation in progress (10_state.md R11). Phase `Idle` is the absence of an operation in progress. -/
inductive Phase where
  /-- One transaction outstanding (BWR, BRD). -/
  | bus
  /-- The read phase (RDREG, WRFLD). -/
  | rd
  /-- The write phase (WRFLD). -/
  | wr
  /-- ROT: the starting snapshot. -/
  | r0
  /-- ROT: loop entry. -/
  | r1
  /-- ROT: the current snapshot. -/
  | r2
  /-- ROT: the decision. -/
  | r3
  deriving DecidableEq, Repr

/-- The working registers of an operation in progress (10_state.md R21, R22). They exist only while the operation runs;
one that no phase has written yet holds 0 and is read by no rule (log entry 13). -/
structure Work where
  /-- The latched slave key (R22). -/
  key    : Key
  /-- `OLD`, the byte WRFLD read (R22). -/
  old    : Byte
  /-- Whether WRFLD's read phase succeeded (41_register_codec.md R82). -/
  readOk : Bool
  /-- `TARGET`, the target pulse count (R21). -/
  target : Word
  /-- `START`, the starting snapshot (R21). -/
  start  : Word
  /-- `T0`, the tick at loop entry (R21). -/
  t0     : Word
  /-- `CUR`, the current snapshot (R21). -/
  cur    : Word
  /-- `DELTA` (R21). -/
  delta  : Word
  /-- `ERR`, the remaining error (R21). -/
  err    : Word
  deriving DecidableEq, Repr

/-- An operation in progress: `SEQ = (op, ph)` with its latched operands and working registers (10_state.md R11). -/
structure InProgress where
  op   : Instr
  ph   : Phase
  work : Work
  deriving DecidableEq, Repr

/-- The two PWM channels (43_rotation_controller.md R110). -/
inductive Chan where
  | ch0
  | ch1
  deriving DecidableEq, Repr

/-- The output event `PwmSet(ch, v)` (43_rotation_controller.md R111). -/
structure PwmSet where
  ch   : Chan
  duty : Byte
  deriving DecidableEq, Repr

/-- One entry of the bus history (40_bus_master.md R70). `failure = none` is `ok`; the byte of a failed read is 0. -/
inductive BusTxn where
  | write (key : Key) (reg data : Byte) (failure : Option FailCause)
  | read  (key : Key) (reg byte : Byte) (failure : Option FailCause)
  deriving DecidableEq, Repr

/-- The written cells of the simulator slaves, by cell address (`cellAddr`, Machine/Ops.lean): addresses strictly rising. -/
abbrev Memory := List Host.Cell

/-- The state of the block, of its inputs and of the environment, and what the block has put out so far. -/
structure State where
  /-- The parameters, `DEVTAB` among them (10_state.md R18), within `Params.legal`; no step writes them. -/
  cfg      : Params
  /-- `SEQ`: `none` is Idle (10_state.md R11). -/
  seq      : Option InProgress
  /-- `COUNT` (10_state.md R12). -/
  count    : Word
  /-- `TICK`, an input (10_state.md R13). -/
  tick     : Word
  /-- `T_START` (10_state.md R14). -/
  tStart   : Word
  /-- `T_MODEL` (10_state.md R15). -/
  tModel   : Word
  /-- `MODE` (10_state.md R16). -/
  mode     : BitVec 3
  /-- `DUTY[0]` (10_state.md R17). -/
  duty0    : Byte
  /-- `DUTY[1]` (10_state.md R17). -/
  duty1    : Byte
  /-- The command words the host has still to present, in order (70_reset_and_hazards.md R207). -/
  cmds     : List CmdWord
  /-- The responses given, oldest first (30_encoding.md R53). -/
  rsps     : List RspWord
  /-- The bus transactions made, oldest first (20_memory.md R39). -/
  busHist  : List BusTxn
  /-- The `PwmSet` events emitted, oldest first (43_rotation_controller.md R111). -/
  dutyHist : List PwmSet
  /-- Which environment stands around the block (the model's own field; log entry 3). -/
  env      : Env
  /-- The turns already fixed, oldest first (the model's own field; log entry 1). -/
  agenda   : List Turn
  /-- The environment's answers already fixed, oldest first (the model's own field; log entry 2). -/
  replies  : List BusReply
  /-- How many free values have been drawn (the model's own field; log entry 28). -/
  draws    : Nat
  /-- The keys at which a simulator slave is wired, each on a port below `NBUS` (20_memory.md R31, R34). -/
  wired    : List Key
  /-- The written cells of the simulator slaves (20_memory.md R31, R34). -/
  mem      : Memory
  deriving DecidableEq, Repr

/-- Why the machine stops. The block itself never stops (60_exceptions.md R160, 70_reset_and_hazards.md R207). -/
inductive Fault where
  /-- Raised by the meaning of a multi-phase operation when `SEQ.ph` is a phase that operation does not have. No run from
  reset reaches such a state. Safe: the machine stops where the spec has no rule (log entry 14). -/
  | noSuchPhase
  deriving DecidableEq, Repr

/-- Why an instruction is given no meaning. -/
inductive Refusal where
  /-- Raised by an arm of `exec` whose instruction has no meaning yet. Safe: the machine stops. -/
  | notModelled (mnemonic : String)
  /-- Raised by every meaning when another operation is in progress: the spec has no such move
  (70_reset_and_hazards.md R208). `step` never asks for it. Safe: the machine stops (log entry 14). -/
  | portBusy
  deriving DecidableEq, Repr

/-- The state at the end of power-up reset (10_state.md R27, 70_reset_and_hazards.md R190). Registers the spec leaves
unspecified hold opaque constants (log entries 8, 9); the OPEN parameters are opaque constants (log entry 6). -/
def State.reset : State where
  cfg := { nbus := Config.nbus, devTab := Config.devTab, legalRegs := Config.legalRegs,
           encIncLevel := false, rmwOnReadFail := .abort, busReadRestart := true }
  seq      := none
  count    := 0#32
  tick     := Config.tickAtReset
  tStart   := Config.tStartAtReset
  tModel   := Config.tModelAtReset
  mode     := 0#3
  duty0    := Config.duty0AtReset
  duty1    := Config.duty1AtReset
  cmds     := []
  rsps     := []
  busHist  := []
  dutyHist := []
  env      := .real
  agenda   := []
  replies  := []
  draws    := 0
  wired    := []
  mem      := []

end Sys2Proof.Machine
end

