-- ==== Sys2Proof/Machine/Flags.lean ====
section
/-! DEFINITION. What an operation reports. The block has no condition codes (10_state.md R19): the outcome is a status
code (60_exceptions.md R161), for ROT the two result bits (43_rotation_controller.md R115, R116, R118), in the response
word (30_encoding.md R53). The operating modes (10_state.md R16) are named here too. -/

namespace Sys2Proof.Machine

/-- The status codes of 60_exceptions.md R161. -/
inductive Status where
  | ok
  | busFail
  | illegalCmd
  | illegalOperand
  | noDevice
  | illegalReg
  deriving DecidableEq, Repr

/-- The number of a status (60_exceptions.md R161). -/
def Status.code : Status → Byte
  | .ok             => 0x00#8
  | .busFail        => 0x01#8
  | .illegalCmd     => 0x02#8
  | .illegalOperand => 0x03#8
  | .noDevice       => 0x04#8
  | .illegalReg     => 0x05#8

/-- The response word: opcode byte, status, 16 zero bits, data; the data is 0 unless the status is `OK`
(30_encoding.md R53). -/
def responseWord (op : Byte) (st : Status) (data : Word) : RspWord :=
  op ++ st.code ++ 0#16 ++ (if st = .ok then data else 0#32)

/-- The status of an operation whose transactions all had the outcome `ok` (40_bus_master.md R71, R72). -/
def busStatus (ok : Bool) : Status := if ok then .ok else .busFail

/-- `MODE = Idle`. -/
def modeIdle : BitVec 3 := 0#3
/-- `MODE = Init`. -/
def modeInit : BitVec 3 := 1#3
/-- `MODE = Model`. -/
def modeModel : BitVec 3 := 2#3
/-- `MODE = Modeled`. -/
def modeModeled : BitVec 3 := 3#3
/-- `MODE = Takeoff`. -/
def modeTakeoff : BitVec 3 := 4#3
/-- `MODE = Function`. -/
def modeFunction : BitVec 3 := 5#3

/-- `delta(START, CUR)`: the magnitude of the signed reading of `CUR - START` modulo 2^32
(43_rotation_controller.md R114). -/
def delta (start cur : Word) : Word :=
  let d := cur - start
  if d.msb then 0#32 - d else d

/-- `ERR`: the remaining error, saturating at 0 (43_rotation_controller.md R115). -/
def remaining (target dlt : Word) : Word := if target ≤ dlt then 0#32 else target - dlt

/-- `REACHED`: `DELTA >= TARGET` as unsigned numbers (43_rotation_controller.md R115). -/
def reached (target dlt : Word) : Bool := target ≤ dlt

/-- `TIMEOUT`: `(now - T0) >= ROT_TIMEOUT_MS` modulo 2^32 (43_rotation_controller.md R116). -/
def timedOut (t0 now : Word) : Bool := Config.rotTimeoutMs ≤ now - t0

/-- ROT's response data: `data[0] = REACHED`, `data[1] = TIMEOUT` (43_rotation_controller.md R118). -/
def rotResult (rch tmo : Bool) : Word := 0#30 ++ BitVec.ofBool tmo ++ BitVec.ofBool rch

end Sys2Proof.Machine
end

