-- ==== Sys2Proof/Machine/Operands.lean ====
section
/-! DEFINITION. What the operands of a command stand for: a slave key, by bus and address (40_bus_master.md R71) or by
device id (41_register_codec.md R80); a channel (43_rotation_controller.md R111); an angle (R113). -/

namespace Sys2Proof.Machine

/-- The slave key of a raw bus operation: `addr7` is `addr[6:0]`, its bit 7 having been checked (30_encoding.md R55). -/
def rawKey (bus addr : Byte) : Key := { bus := bus, addr := addr.setWidth 7 }

/-- Device lookup and register check (41_register_codec.md R80): checks (4) and (5) of 30_encoding.md R57. -/
def lookup (p : Params) (dev reg : Byte) : Except Status Key :=
  if dev.toNat = 0 then .error .noDevice
  else match p.devTab[dev.toNat - 1]? with
    | none   => .error .noDevice
    | some k => if reg ∈ p.legalRegs then .ok k else .error .illegalReg

/-- The channel a checked `ch` operand names (30_encoding.md R55: 0 or 1). -/
def chanOf (ch : Byte) : Chan := if ch = 0#8 then .ch0 else .ch1

/-- The mode a checked `mode` operand names: `mode[2:0]` (42_encoder_tracker.md R98). -/
def modeOf (mode : Byte) : BitVec 3 := mode.setWidth 3

/-- The target pulse count in unbounded integers: `angle * PPR / 360` pulses, the angle in 1/65536 degree, rounded half
up (43_rotation_controller.md R113). -/
def targetNat (angle : Nat) : Nat := (2 * Config.ppr * angle + 360 * 65536) / (2 * 360 * 65536)

/-- `target(A)` as the 32-bit register `TARGET` (43_rotation_controller.md R113). -/
def target (angle : Word) : Word := BitVec.ofNat 32 (targetNat angle.toNat)

/-- The byte WRFLD writes: `(OLD & mask) | trunc_8(bits << shift)` (41_register_codec.md R82). -/
def newByte (old mask bits shift : Byte) : Byte := (old &&& mask) ||| (bits <<< shift.toNat)

end Sys2Proof.Machine
end

