-- ==== Sys2Proof/Machine/Ops.lean ====
section
/-! DEFINITION. The named operations over the state: the simulator slave's cells, one bus transaction, `SetDuty`,
`respond` and `raise` (00_scope.md R8), the latching of an operation, and the two shapes a meaning has. The block takes no
trap and has no return from one (60_exceptions.md R160, R167): `raise` is the whole of its synchronous exceptions. -/

namespace Sys2Proof.Machine

/-! ### The slave register space -/

/-- The address of a cell of the slave register space: slaves with different keys have unrelated cells, 256 each
(20_memory.md R31). -/
def cellAddr (k : Key) (reg : Byte) : Nat := k.bus.toNat * 32768 + k.addr.toNat * 256 + reg.toNat

/-- Reads a cell; `none` for one that has never been written. -/
def Memory.read : Memory → Nat → Option Byte
  | [], _ => none
  | (b, v) :: m, a => if a = b then some v else Memory.read m a

/-- Writes a cell, keeping the addresses strictly rising. -/
def Memory.write : Memory → Nat → Byte → Memory
  | [], a, v => [(a, v)]
  | (b, w) :: m, a, v =>
    if a < b then (a, v) :: (b, w) :: m
    else if a = b then (a, v) :: m
    else (b, w) :: Memory.write m a v

/-- The canonical form of a memory: addresses strictly rising. An unlisted cell reads as no value, so no entry can equal
what an unlisted one reads as. -/
def Memory.wf : Memory → Bool
  | [] => true
  | [_] => true
  | (a, _) :: (b, w) :: m => a < b && Memory.wf ((b, w) :: m)

/-- What a simulator slave's cell holds: the byte last written, else a free byte (20_memory.md R34; log entry 4). -/
def cellByte (m : Memory) (a : Nat) : Byte := (Memory.read m a).getD (Config.slavePowerUp a)

/-- Whether a simulator slave answers at the key (20_memory.md R34). -/
def answersAt (s : State) (k : Key) : Bool := s.env == .bench && s.wired.contains k

/-- A byte reaches register `reg` of the slave at `k`: a cell of the simulator slave changes; the real environment's
registers are not the model's (20_memory.md R33, R34). -/
def slaveStore (k : Key) (reg v : Byte) (s : State) : State :=
  if answersAt s k then { s with mem := Memory.write s.mem (cellAddr k reg) v } else s

/-! ### Bus transactions -/

/-- The environment's answer to a transaction: the next fixed one; else the simulator slave's, which fails at an unwired
key (20_memory.md R34), or in the real environment a free value (R33). -/
def busAnswer (k : Key) (reg : Byte) (s : State) : BusReply × State :=
  match s.replies with
  | r :: rest => (r, { s with replies := rest })
  | [] =>
    match s.env with
    | .bench =>
      (if s.wired.contains k then .done (cellByte s.mem (cellAddr k reg)) else .fail .nackAddress false, s)
    | .real => (Config.busReply s.draws, { s with draws := s.draws + 1 })

/-- `MemWrite(k, reg, 1, v)`: one write transaction; answers `ok` (40_bus_master.md R71). DESIGN CHOICE, safe: a failed write
lands as its answer says, whatever the cause, also one after which the frame sends no data byte (log entry 5). -/
def memWrite (k : Key) (reg v : Byte) (s : State) : Bool × State :=
  let a := busAnswer k reg s
  match a.1 with
  | .done _ =>
    (true, slaveStore k reg v { a.2 with busHist := a.2.busHist ++ [.write k reg v none] })
  | .fail c true =>
    (false, slaveStore k reg v { a.2 with busHist := a.2.busHist ++ [.write k reg v (some c)] })
  | .fail c false =>
    (false, { a.2 with busHist := a.2.busHist ++ [.write k reg v (some c)] })

/-- `MemRead(k, reg, 1)`: one read transaction; answers `(ok, byte)`, the byte 0 when it failed
(40_bus_master.md R72). -/
def memRead (k : Key) (reg : Byte) (s : State) : (Bool × Byte) × State :=
  let a := busAnswer k reg s
  match a.1 with
  | .done b   => ((true, b), { a.2 with busHist := a.2.busHist ++ [.read k reg b none] })
  | .fail c _ => ((false, 0#8), { a.2 with busHist := a.2.busHist ++ [.read k reg 0#8 (some c)] })

/-! ### Outputs -/

/-- `SetDuty(ch, v)`: writes the duty and emits `PwmSet(ch, v)` (43_rotation_controller.md R111). -/
def setDuty (ch : Chan) (v : Byte) (s : State) : State :=
  match ch with
  | .ch0 => { s with duty0 := v, dutyHist := s.dutyHist ++ [⟨.ch0, v⟩] }
  | .ch1 => { s with duty1 := v, dutyHist := s.dutyHist ++ [⟨.ch1, v⟩] }

/-- `respond(st, data)`: gives the response of the operation with opcode byte `op` and ends it: `SEQ <- Idle`
(00_scope.md R8, 30_encoding.md R53). -/
def respond (op : Byte) (st : Status) (data : Word) (s : State) : State :=
  { s with seq := none, rsps := s.rsps ++ [responseWord op st data] }

/-- `raise st`: the response `st` with data 0 and no other change (60_exceptions.md R160). -/
def raise (op : Byte) (st : Status) (s : State) : State := respond op st 0#32 s

/-! ### The shapes of an operation -/

/-- The working registers before any phase has written them (log entry 13). -/
def Work.fresh : Work where
  key := { bus := 0#8, addr := 0#7 }
  old := 0#8
  readOk := false
  target := 0#32
  start := 0#32
  t0 := 0#32
  cur := 0#32
  delta := 0#32
  err := 0#32

/-- `SEQ <- (i, ph)` with the working registers `w` (10_state.md R11). -/
def enter (i : Instr) (ph : Phase) (w : Work) (s : State) : State := { s with seq := some ⟨i, ph, w⟩ }

/-- Accepts an operation: check (3) of 30_encoding.md R57, then `f`. -/
def accept (i : Instr) (f : State → State) (s : State) : State :=
  if i.WellFormed s.cfg then f s else raise i.opcode .illegalOperand s

/-- Accepts a codec operation: checks (3) to (5) of 30_encoding.md R57, then its first phase with the latched key
(41_register_codec.md R80). -/
def acceptCodec (i : Instr) (dev reg : Byte) (s : State) : State :=
  accept i (fun s =>
    match lookup s.cfg dev reg with
    | .ok k     => enter i .rd { Work.fresh with key := k } s
    | .error st => raise i.opcode st s) s

/-- The meaning of an operation that completes in the step that accepts it (10_state.md R11). -/
def oneStep (i : Instr) (f : State → State) (s : State) : Host.Outcome State Fault Refusal :=
  match s.seq with
  | none   => .next (accept i f s)
  | some _ => .refused .portBusy

/-- The meaning of an operation with phases: accepted by `start` when the sequencer is idle, advanced by one phase by
`run` while it is in progress (10_state.md R11, R20). -/
def phased (i : Instr) (start : State → State)
    (run : Phase → Work → State → Host.Outcome State Fault Refusal) (s : State) :
    Host.Outcome State Fault Refusal :=
  match s.seq with
  | none   => .next (start s)
  | some p => if p.op = i then run p.ph p.work s else .refused .portBusy

end Sys2Proof.Machine
end

