-- ==== Sys2Proof/Machine/BusMaster.lean ====
section
/-! DEFINITION. The two-wire register-bus master: BWR and BRD (40_bus_master.md R71, R72). A whole transaction is one
step of the sequencer (R78). -/

namespace Sys2Proof.Machine

/-- BWR, phase BUS: one write transaction, then the response (40_bus_master.md R71). -/
def bwrBus (i : Instr) (reg data : Byte) (w : Work) (s : State) : State :=
  let t := memWrite w.key reg data s
  respond i.opcode (busStatus t.1) 0#32 t.2

/-- BRD and RDREG: one read transaction, then the response with the byte, zero-extended
(40_bus_master.md R72, 41_register_codec.md R81). -/
def readAndRespond (i : Instr) (reg : Byte) (w : Work) (s : State) : State :=
  let t := memRead w.key reg s
  respond i.opcode (busStatus t.1.1) (t.1.2.setWidth 32) t.2

/-- BWR: bus write of one byte (40_bus_master.md R71). -/
def execBwr (bus addr reg data : Byte) (s : State) : Host.Outcome State Fault Refusal :=
  let i := Instr.bwr bus addr reg data
  phased i (accept i (enter i .bus { Work.fresh with key := rawKey bus addr }))
    (fun ph w s => match ph with
      | .bus => .next (bwrBus i reg data w s)
      | _    => .fault .noSuchPhase) s

/-- BRD: bus read of one byte (40_bus_master.md R72). -/
def execBrd (bus addr reg : Byte) (s : State) : Host.Outcome State Fault Refusal :=
  let i := Instr.brd bus addr reg
  phased i (accept i (enter i .bus { Work.fresh with key := rawKey bus addr }))
    (fun ph w s => match ph with
      | .bus => .next (readAndRespond i reg w s)
      | _    => .fault .noSuchPhase) s

end Sys2Proof.Machine
end

