-- ==== Sys2Proof/Machine/Codec.lean ====
section
/-! DEFINITION. The register-field codec: RDREG and WRFLD (41_register_codec.md R80 to R84). -/

namespace Sys2Proof.Machine

/-- RDREG: read one register of a device (41_register_codec.md R81). -/
def execRdreg (dev reg : Byte) (s : State) : Host.Outcome State Fault Refusal :=
  let i := Instr.rdreg dev reg
  phased i (acceptCodec i dev reg)
    (fun ph w s => match ph with
      | .rd => .next (readAndRespond i reg w s)
      | _   => .fault .noSuchPhase) s

/-- WRFLD, phase RD: the read; a failed one ends the operation under `abort`, else `OLD` is taken as 0
(41_register_codec.md R82). -/
def wrfldRd (i : Instr) (reg : Byte) (w : Work) (s : State) : State :=
  let t := memRead w.key reg s
  if t.1.1 = false ∧ s.cfg.rmwOnReadFail = .abort then respond i.opcode .busFail 0#32 t.2
  else enter i .wr { w with old := t.1.2, readOk := t.1.1 } t.2

/-- WRFLD, phase WR: the write of `NEW`, then the response (41_register_codec.md R82). -/
def wrfldWr (i : Instr) (reg mask bits shift : Byte) (w : Work) (s : State) : State :=
  let t := memWrite w.key reg (newByte w.old mask bits shift) s
  respond i.opcode (busStatus (t.1 && w.readOk)) 0#32 t.2

/-- WRFLD: write a bit-field of one register by read-modify-write (41_register_codec.md R82). -/
def execWrfld (dev reg mask bits shift : Byte) (s : State) : Host.Outcome State Fault Refusal :=
  let i := Instr.wrfld dev reg mask bits shift
  phased i (acceptCodec i dev reg)
    (fun ph w s => match ph with
      | .rd => .next (wrfldRd i reg w s)
      | .wr => .next (wrfldWr i reg mask bits shift w s)
      | _   => .fault .noSuchPhase) s

end Sys2Proof.Machine
end

