-- ==== Sys2Proof/Machine/Encoder.lean ====
section
/-! DEFINITION. The quadrature-encoder tracker: the edge handler (42_encoder_tracker.md R90 to R92, R99) and the six
operations on the state it shares with the host (R93 to R98). -/

namespace Sys2Proof.Machine

/-- The revolution tick: in mode Model, records the interval and moves to Modeled (42_encoder_tracker.md R92). -/
def revolutionTick (s : State) : State :=
  if s.mode = modeModel then { s with tModel := s.tick - s.tStart, mode := modeModeled } else s

/-- `COUNT` after an edge at which ENC_B has the level `b` (42_encoder_tracker.md R90). -/
def countAfter (p : Params) (b : Bool) (c : Word) : Word := if b = p.encIncLevel then c + 1#32 else c - 1#32

/-- Whether an updated `COUNT` is a multiple of `REV_PULSES` (42_encoder_tracker.md R91). -/
def atRevolution (c : Word) : Bool := c.toNat % Config.revPulses == 0

/-- `Edge(b)`, the edge handler, one step (42_encoder_tracker.md R90). -/
def edge (b : Bool) (s : State) : State :=
  let c := countAfter s.cfg b s.count
  if atRevolution c then revolutionTick { s with count := c } else { s with count := c }

/-- ENCRD: snapshot of the pulse counter (42_encoder_tracker.md R93). -/
def execEncrd (s : State) : Host.Outcome State Fault Refusal :=
  oneStep .encrd (fun s => respond Instr.encrd.opcode .ok s.count s) s

/-- ENCCLR: clears the pulse counter; raises no revolution tick (42_encoder_tracker.md R94). -/
def execEncclr (s : State) : Host.Outcome State Fault Refusal :=
  oneStep .encclr (fun s => respond Instr.encclr.opcode .ok 0#32 { s with count := 0#32 }) s

/-- TMARK: records the modelling start time (42_encoder_tracker.md R95). -/
def execTmark (s : State) : Host.Outcome State Fault Refusal :=
  oneStep .tmark (fun s => respond Instr.tmark.opcode .ok 0#32 { s with tStart := s.tick }) s

/-- TMRD: reads the recorded modelling interval (42_encoder_tracker.md R96). -/
def execTmrd (s : State) : Host.Outcome State Fault Refusal :=
  oneStep .tmrd (fun s => respond Instr.tmrd.opcode .ok s.tModel s) s

/-- MODERD: reads the operating mode (42_encoder_tracker.md R97). -/
def execModerd (s : State) : Host.Outcome State Fault Refusal :=
  oneStep .moderd (fun s => respond Instr.moderd.opcode .ok (s.mode.setWidth 32) s) s

/-- MODEWR: writes the operating mode, any of the six from any of them (42_encoder_tracker.md R98). -/
def execModewr (mode : Byte) (s : State) : Host.Outcome State Fault Refusal :=
  let i := Instr.modewr mode
  oneStep i (fun s => respond i.opcode .ok 0#32 { s with mode := modeOf mode }) s

end Sys2Proof.Machine
end

