-- ==== Sys2Proof/Machine/Rotation.lean ====
section
/-! DEFINITION. The closed-loop rotation controller and the duty outputs: ROT and PWMWR
(43_rotation_controller.md R110 to R122). -/

namespace Sys2Proof.Machine

/-- The drive pattern: one channel at `speed`, the other at 0; channel 0 is set first
(43_rotation_controller.md R117). -/
def drive (cw speed : Byte) (s : State) : State :=
  if cw = 1#8 then setDuty .ch1 0#8 (setDuty .ch0 speed s) else setDuty .ch1 speed (setDuty .ch0 0#8 s)

/-- The braking pattern: both channels at the maximum, channel 0 first (43_rotation_controller.md R118). -/
def brake (s : State) : State := setDuty .ch1 Config.dutyMax (setDuty .ch0 Config.dutyMax s)

/-- ROT, phase R3: the decision to drive on or to brake and respond (43_rotation_controller.md R112). -/
def rotR3 (i : Instr) (cw speed : Byte) (w : Work) (s : State) : State :=
  let d := delta w.start w.cur
  let rch := reached w.target d
  let tmo := timedOut w.t0 s.tick
  if rch || tmo then respond i.opcode .ok (rotResult rch tmo) (brake s)
  else enter i .r2 { w with delta := d, err := remaining w.target d } (drive cw speed s)

/-- ROT: rotate by an angle (43_rotation_controller.md R112); `TARGET` is computed as the operation is accepted. -/
def execRot (cw speed : Byte) (angle : Word) (s : State) : Host.Outcome State Fault Refusal :=
  let i := Instr.rot cw speed angle
  phased i (accept i (enter i .r0 { Work.fresh with target := target angle }))
    (fun ph w s => match ph with
      | .r0 => .next (enter i .r1 { w with start := s.count } s)
      | .r1 => .next (enter i .r2 { w with t0 := s.tick } s)
      | .r2 => .next (enter i .r3 { w with cur := s.count } s)
      | .r3 => .next (rotR3 i cw speed w s)
      | _   => .fault .noSuchPhase) s

/-- PWMWR: sets one duty (43_rotation_controller.md R111). -/
def execPwmwr (ch duty : Byte) (s : State) : Host.Outcome State Fault Refusal :=
  let i := Instr.pwmwr ch duty
  oneStep i (fun s => respond i.opcode .ok 0#32 (setDuty (chanOf ch) duty s)) s

end Sys2Proof.Machine
end

