-- ==== Sys2Proof/Machine/Dispatch.lean ====
section
/-! DEFINITION. The meaning of each operation, one arm per constructor of Instr. -/

namespace Sys2Proof.Machine

-- `exec i s`: the host presents `i` (SEQ idle), or the sequencer advances the `i` in progress by one phase.
def exec (i : Instr) (s : State) : Host.Outcome State Fault Refusal :=
  match i with
  | .bwr bus addr reg data => Sys2Proof.Machine.execBwr bus addr reg data s
  | .brd bus addr reg => Sys2Proof.Machine.execBrd bus addr reg s
  | .rdreg dev reg => Sys2Proof.Machine.execRdreg dev reg s
  | .wrfld dev reg mask bits shift => Sys2Proof.Machine.execWrfld dev reg mask bits shift s
  | .encrd => Sys2Proof.Machine.execEncrd s
  | .encclr => Sys2Proof.Machine.execEncclr s
  | .tmark => Sys2Proof.Machine.execTmark s
  | .tmrd => Sys2Proof.Machine.execTmrd s
  | .moderd => Sys2Proof.Machine.execModerd s
  | .modewr mode => Sys2Proof.Machine.execModewr mode s
  | .rot cw speed angle => Sys2Proof.Machine.execRot cw speed angle s
  | .pwmwr ch duty => Sys2Proof.Machine.execPwmwr ch duty s

end Sys2Proof.Machine
end

