-- ==== Sys2Proof/Machine/Sequencer.lean ====
section
/-! DEFINITION. Who moves, and what each agent's move is (10_state.md R26): the next turn, the events of the environment,
and the block's own move, by the sequencer or by the host. -/

namespace Sys2Proof.Machine

/-- The next turn: the first of the agenda; with none fixed, the bench lets the block move and the real environment gives
a free value (10_state.md R20, R26; log entry 1). -/
def nextTurn (s : State) : Turn × State :=
  match s.agenda with
  | t :: rest => (t, { s with agenda := rest })
  | [] =>
    match s.env with
    | .bench => (.block, s)
    | .real  => (Config.turn s.draws, { s with draws := s.draws + 1 })

/-- The tick generator's step (60_exceptions.md R169). -/
def tickAdvance (s : State) : State := { s with tick := s.tick + 1#32 }

/-- The host presents the word `w`: an undefined one is answered `ILLEGAL_CMD` with the opcode byte copied
(30_encoding.md R53, R56), any other runs. -/
def present (w : CmdWord) (s : State) : Host.Outcome State Fault Refusal :=
  match decode w with
  | .ok i    => exec i s
  | .error _ => .next (raise (fieldByte w 56) .illegalCmd s)

/-- The block's own move: the operation in progress advances by one phase; with none, the host presents its next word, or
sends nothing when it has none (10_state.md R11, 70_reset_and_hazards.md R208). -/
def blockMove (s : State) : Host.Outcome State Fault Refusal :=
  match s.seq with
  | some p => exec p.op s
  | none =>
    match s.cmds with
    | []      => .next s
    | w :: ws => present w { s with cmds := ws }

/-- One turn (10_state.md R20, R26). An event touches neither `SEQ` nor the port (60_exceptions.md R166). -/
def takeTurn (t : Turn) (s : State) : Host.Outcome State Fault Refusal :=
  match t with
  | .block          => blockMove s
  | .edge b         => .next (edge b s)
  | .tick           => .next (tickAdvance s)
  | .slave k reg v  => .next (slaveStore k reg v s)

end Sys2Proof.Machine
end

