-- ==== Sys2Proof/Machine/Step.lean ====
section
/-! DEFINITION. One step of the machine: the next agent takes its turn (10_state.md R20, R26). -/

namespace Sys2Proof.Machine

/-- One atomic step: one event, or one phase of one operation (10_state.md R20). -/
def step (s : State) : Host.Outcome State Fault Refusal :=
  takeTurn (nextTurn s).1 (nextTurn s).2

/-- The state in which the very next step is the host presenting the word `w` of `nbits` bits: it is the first word at the
command port, the sequencer is idle and the turn is the block's (log entry 10). -/
def State.withFetchWord (s : State) (nbits w : Nat) : State :=
  { s with seq := none, cmds := BitVec.ofNat 64 (w % 2 ^ nbits) :: s.cmds, agenda := .block :: s.agenda }

end Sys2Proof.Machine
end

