-- ==== Sys2Proof/Machine/Assembler.lean ====
section
/-! DEFINITION. The textual form of a command and of a response (30_encoding.md R60). -/

namespace Sys2Proof.Machine

/-- The raw angle of a number of degrees `num / den`: `floor(degrees * 65536 + 1/2)` (30_encoding.md R60). -/
def angleOfDegrees (num den : Nat) : Nat := (2 * num * 65536 + den) / (2 * den)

/-- The operands of an operation in the order of its format's fields (30_encoding.md R60). -/
def operands : Instr → List Nat
  | .bwr bus addr reg data         => [bus.toNat, addr.toNat, reg.toNat, data.toNat]
  | .brd bus addr reg              => [bus.toNat, addr.toNat, reg.toNat]
  | .rdreg dev reg                 => [dev.toNat, reg.toNat]
  | .wrfld dev reg mask bits shift => [dev.toNat, reg.toNat, mask.toNat, bits.toNat, shift.toNat]
  | .encrd                         => []
  | .encclr                        => []
  | .tmark                         => []
  | .tmrd                          => []
  | .moderd                        => []
  | .modewr mode                   => [mode.toNat]
  | .rot cw speed angle            => [cw.toNat, speed.toNat, angle.toNat]
  | .pwmwr ch duty                 => [ch.toNat, duty.toNat]

/-- The command's text: the mnemonic, then the operands in decimal, separated by commas (30_encoding.md R60). -/
def asmText (i : Instr) : String :=
  match operands i with
  | []      => i.mnemonic
  | a :: as => i.mnemonic ++ " " ++ as.foldl (fun t n => t ++ ", " ++ toString n) (toString a)

/-- The name of a status (60_exceptions.md R161). -/
def statusName : Status → String
  | .ok             => "OK"
  | .busFail        => "BUS_FAIL"
  | .illegalCmd     => "ILLEGAL_CMD"
  | .illegalOperand => "ILLEGAL_OPERAND"
  | .noDevice       => "NO_DEVICE"
  | .illegalReg     => "ILLEGAL_REG"

/-- The response's text: the status, then its data in decimal (30_encoding.md R60). -/
def responseText (st : Status) (data : Word) : String := "-> " ++ statusName st ++ ", " ++ toString data.toNat

end Sys2Proof.Machine
end

