-- ==== Sys2Proof/Machine/Program.lean ====
section
/-! DEFINITION. The run of a program and its end (70_reset_and_hazards.md R207). -/

namespace Sys2Proof.Machine

/-- How many commands the host is owed a response for: those not yet presented and the one in progress. -/
def owed (s : State) : Nat := s.cmds.length + (if s.seq.isSome then 1 else 0)

/-- The step from `s` to `t` gives the response to the program's last command: the run ends at `t`
(70_reset_and_hazards.md R207). -/
def EndsAt (s t : State) : Prop := step s = .next t ∧ owed s ≠ 0 ∧ owed t = 0

/-- The state at which the run from `s` ends, if it ends within `n` steps; no later step is taken, so events that come
after the last response are no part of the run (70_reset_and_hazards.md R207). A program of no commands ends where it
starts (log entry 31). -/
def endOf (n : Nat) (s : State) : Option State :=
  if owed s = 0 then some s
  else match n with
    | 0     => none
    | k + 1 =>
      match step s with
      | .next t    => endOf k t
      | .fault _   => none
      | .refused _ => none

/-- What is observable of a run that has ended (70_reset_and_hazards.md R207): what it put out, and the state then. -/
structure RunResult where
  rsps     : List RspWord
  busHist  : List BusTxn
  dutyHist : List PwmSet
  final    : State
  deriving DecidableEq, Repr

/-- The result of the run that goes from `s` to its end `t`; what was put out before `s` is no part of it. -/
def resultOf (s t : State) : RunResult where
  rsps := t.rsps.drop s.rsps.length
  busHist := t.busHist.drop s.busHist.length
  dutyHist := t.dutyHist.drop s.dutyHist.length
  final := t

/-- The run of the program `ws` from `s`, if it ends within `n` steps; none for one that hangs
(70_reset_and_hazards.md R207). -/
def runProgram (n : Nat) (ws : List CmdWord) (s : State) : Option RunResult :=
  (endOf n { s with cmds := ws }).map (resultOf s)

end Sys2Proof.Machine
end

