-- ==== Sys2Proof/Machine/Wire.lean ====
section
/-! DEFINITION. The wire level of a bus transaction (40_bus_master.md R73 to R75, general knowledge in the spec): what the
two wires of the port carry, as a view of an entry of the bus history. Nothing else of the model depends on it. -/

namespace Sys2Proof.Machine

/-- One element of a frame, in the order the wires carry them. -/
inductive WireItem where
  /-- A START condition (a repeated one when no STOP came before it). -/
  | start
  /-- A STOP condition. -/
  | stop
  /-- A byte driven by the master. -/
  | master (b : Byte)
  /-- A byte driven by the slave. -/
  | slave (b : Byte)
  /-- The slave's acknowledge bit: 0 is ACK, 1 is NACK. -/
  | slaveAck (bit : Bool)
  /-- The master's acknowledge bit after the byte it received. -/
  | masterAck (bit : Bool)
  deriving DecidableEq, Repr

/-- The address byte `{addr7, r}`: `r` is 0 for a write, 1 for a read (40_bus_master.md R73, R74). -/
def addressByte (k : Key) (r : Bool) : Byte := k.addr ++ BitVec.ofBool r

/-- A byte as it is sent, most significant bit first (20_memory.md R35). -/
def msbFirst (b : Byte) : List Bool := [b[7], b[6], b[5], b[4], b[3], b[2], b[1], b[0]]

/-- The bits an item puts on the data wire; START and STOP are conditions, not bits. -/
def WireItem.bits : WireItem → List Bool
  | .start        => []
  | .stop         => []
  | .master b     => msbFirst b
  | .slave b      => msbFirst b
  | .slaveAck bit => [bit]
  | .masterAck bit => [bit]

/-- The pointer phase's opening: START, the address for writing, the register; a NACK ends it with STOP. -/
def pointerPhase (k : Key) (reg : Byte) (rest : List WireItem) : Option FailCause → List WireItem
  | some .nackAddress  => [.start, .master (addressByte k false), .slaveAck true, .stop]
  | some .nackRegister =>
    [.start, .master (addressByte k false), .slaveAck false, .master reg, .slaveAck true, .stop]
  | _ => [.start, .master (addressByte k false), .slaveAck false, .master reg, .slaveAck false] ++ rest

/-- The frame of a transaction, or none where a cause the spec does not enumerate cut it short
(40_bus_master.md R73 to R75); `restart` is `BUS_READ_RESTART`. -/
def BusTxn.frame (restart : Bool) : BusTxn → Option (List WireItem)
  | .write _ _ _ (some .other) => none
  | .read _ _ _ (some .other)  => none
  | .write k reg data f =>
    some (pointerPhase k reg [.master data, .slaveAck f.isSome, .stop] f)
  | .read k reg byte f =>
    some (pointerPhase k reg
      ((if restart then [.start] else [.stop, .start]) ++
        (if f.isSome then [.master (addressByte k true), .slaveAck true, .stop]
         else [.master (addressByte k true), .slaveAck false, .slave byte, .masterAck true, .stop])) f)

/-- Whether every acknowledge bit of the slave in a frame is ACK: the `ok` of 40_bus_master.md R73 and R74. -/
def allAcknowledged (f : List WireItem) : Bool := f.all (fun x => x != .slaveAck true)

/-- The slave a transaction is with. -/
def BusTxn.key : BusTxn → Key
  | .write k _ _ _ => k
  | .read k _ _ _  => k

/-- Whether the transaction ended with `ok`. -/
def BusTxn.ok : BusTxn → Bool
  | .write _ _ _ f => f.isNone
  | .read _ _ _ f  => f.isNone

/-- What the ports have carried so far, transaction by transaction (40_bus_master.md R73, R74). -/
def State.wire (s : State) : List (Option (List WireItem)) := s.busHist.map (BusTxn.frame s.cfg.busReadRestart)

end Sys2Proof.Machine
end

