-- ==== Sys2Proof/Safety.lean ====
section
/-! DEFINITION. What counts as a safe state and as the end of a run, in the terms the statements use. -/

namespace Sys2Proof.Machine

/-- The phases an operation has (10_state.md R11). -/
def hasPhase : Instr → Phase → Bool
  | .bwr _ _ _ _,     ph => ph == .bus
  | .brd _ _ _,       ph => ph == .bus
  | .rdreg _ _,       ph => ph == .rd
  | .wrfld _ _ _ _ _, ph => ph == .rd || ph == .wr
  | .rot _ _ _,       ph => ph == .r0 || ph == .r1 || ph == .r2 || ph == .r3
  | .encrd,           _  => false
  | .encclr,          _  => false
  | .tmark,           _  => false
  | .tmrd,            _  => false
  | .moderd,          _  => false
  | .modewr _,        _  => false
  | .pwmwr _ _,       _  => false

/-- Whether the working registers hold what the acceptance of the operation latched: the slave key
(10_state.md R22), or `TARGET` (43_rotation_controller.md R112). -/
def latched (p : Params) (w : Work) : Instr → Prop
  | .bwr bus addr _ _       => w.key = rawKey bus addr
  | .brd bus addr _         => w.key = rawKey bus addr
  | .rdreg dev reg          => lookup p dev reg = .ok w.key
  | .wrfld dev reg _ _ _    => lookup p dev reg = .ok w.key
  | .rot _ _ angle          => w.target = target angle
  | .encrd                  => True
  | .encclr                 => True
  | .tmark                  => True
  | .tmrd                   => True
  | .moderd                 => True
  | .modewr _               => True
  | .pwmwr _ _              => True

/-- `SEQ` is Idle, or an operation whose operands passed the checks of 30_encoding.md R57, in one of its own phases, with
the registers its acceptance latched. -/
def SeqLegal (s : State) : Prop :=
  ∀ p, s.seq = some p → p.op.WellFormed s.cfg = true ∧ hasPhase p.op p.ph = true ∧ latched s.cfg p.work p.op

/-- `MODE` holds one of the six modes, never 6 or 7 (10_state.md R16). -/
def ModeLegal (s : State) : Prop := s.mode.toNat ≤ 5

/-- A response word as 30_encoding.md R53 and 60_exceptions.md R161 allow it: a defined status, bits 47:32 zero, and data
0 unless the status is `OK`. -/
def responseLegal (r : RspWord) : Bool :=
  r.extractLsb' 48 8 ≤ 5#8 && r.extractLsb' 32 16 == 0#16 && (r.extractLsb' 48 8 == 0#8 || r.extractLsb' 0 32 == 0#32)

/-- Every response given so far has the form of 30_encoding.md R53. -/
def ResponsesLegal (s : State) : Prop := ∀ r ∈ s.rsps, responseLegal r = true

/-- Every simulator slave is wired to a port that exists (20_memory.md R31). -/
def WiringLegal (s : State) : Prop := ∀ k ∈ s.wired, k.bus.toNat < s.cfg.nbus

/-- Only wired keys have cells (20_memory.md R31). -/
def CellsWired (s : State) : Prop := ∀ c ∈ s.mem, ∃ k ∈ s.wired, ∃ reg, c.1 = cellAddr k reg

/-- The invariant of the machine. -/
structure Inv (s : State) : Prop where
  paramsLegal    : s.cfg.legal = true
  wiringLegal    : WiringLegal s
  seqLegal       : SeqLegal s
  modeLegal      : ModeLegal s
  memCanonical   : s.mem.wf = true
  cellsWired     : CellsWired s
  responsesLegal : ResponsesLegal s

/-- A response word by its numbers, as 30_encoding.md R53 lays it out: opcode byte, status code, 16 zero bits, data. -/
def rspOf (op st : Byte) (data : Word) : RspWord := op ++ st ++ 0#16 ++ data

/-- Why a transaction with this answer failed; `none` is `ok` (40_bus_master.md R75). -/
def failureOf : BusReply → Option FailCause
  | .done _   => none
  | .fail c _ => some c

/-- The byte a read with this answer yields: 0 when it failed (40_bus_master.md R72). -/
def byteOf : BusReply → Byte
  | .done b   => b
  | .fail _ _ => 0#8

/-- Whether a write with this answer reached the slave's register (20_memory.md R37). -/
def landed : BusReply → Bool
  | .done _   => true
  | .fail _ l => l

/-- In `s` a transaction to register `reg` of the slave at `k` is answered by `r`, which leaves the fixed answers `rest`
and the draw counter `d`: the next fixed answer, else the simulator slave's, else a free value. -/
def AnsweredBy (s : State) (k : Key) (reg : Byte) (r : BusReply) (rest : List BusReply) (d : Nat) : Prop :=
  (s.replies = r :: rest ∧ d = s.draws) ∨
  (s.replies = [] ∧ rest = [] ∧ s.env = .bench ∧ d = s.draws ∧
    r = if k ∈ s.wired then .done (cellByte s.mem (cellAddr k reg)) else .fail .nackAddress false) ∨
  (s.replies = [] ∧ rest = [] ∧ s.env = .real ∧ d = s.draws + 1 ∧ r = Config.busReply s.draws)

/-- The simulator slaves' cells after a write of `v` that was answered by `r`: the one cell changes if the byte reached a
wired slave of the test bench, and none otherwise (20_memory.md R34, R37). -/
def cellsAfter (s : State) (k : Key) (reg v : Byte) (r : BusReply) : Memory :=
  if landed r = true ∧ s.env = .bench ∧ k ∈ s.wired then Memory.write s.mem (cellAddr k reg) v else s.mem

/-- `n` steps of the machine. -/
def runs (n : Nat) (s : State) : Host.Outcome State Fault Refusal :=
  match n with
  | 0     => .next s
  | k + 1 =>
    match step s with
    | .next t    => runs k t
    | .fault f   => .fault f
    | .refused r => .refused r

/-- A state reached from `s` by steps of the machine. -/
inductive Reaches : State → State → Prop where
  | refl (s : State) : Reaches s s
  | tail {s t u : State} : Reaches s t → step t = .next u → Reaches s u

end Sys2Proof.Machine
end

