-- ==== Sys2Proof/Certificates/Slice0/Obligations.lean ====
section
/-! DEFINITION. The statements about the block, one `def Obligations.<Name> : Prop` each, from the numbered rules of
spec/. An equation `exec i s = .next { s with … }` states the result and the frame of the instruction in one: every field
of the state that the braces do not name is unchanged, every cell of memory among them. -/

open Sys2Proof Sys2Proof.Machine

/-! ### Encoding -/

/-- 30_encoding.md R51, R52: no bit of an operand is dropped, scaled or moved. -/
def Obligations.DecodeOfEncodeIsTheInstruction : Prop :=
  ∀ i : Instr, decode (encode i) = .ok i

/-- 30_encoding.md R51, R54: each word that decodes has one meaning and is that operation's only word. -/
def Obligations.EncodeOfDecodeIsTheWord : Prop :=
  ∀ (w : CmdWord) (i : Instr), decode w = .ok i → encode i = w

/-- 30_encoding.md R54: the decoder agrees with the printed opcode map, and the map is unambiguous. -/
def Obligations.DecodeFollowsTheOpcodeMap : Prop :=
  ∀ w : CmdWord,
    (∀ i, decode w = .ok i → ∃ r ∈ opcodeTable, r.mnemonic = i.mnemonic ∧ w &&& r.mask = r.value) ∧
    ((∃ r ∈ opcodeTable, w &&& r.mask = r.value) → ∃ i, decode w = .ok i) ∧
    (∀ r ∈ opcodeTable, ∀ r' ∈ opcodeTable, w &&& r.mask = r.value → w &&& r'.mask = r'.value → r = r')

/-- The example words of 40_bus_master.md, 41_register_codec.md, 42_encoder_tracker.md, 43_rotation_controller.md. -/
def Obligations.ExampleWordsDecode : Prop :=
  decode 0x10004A237F000000#64 = .ok (.bwr 0#8 0x4A#8 0x23#8 0x7F#8) ∧
  decode 0x11004A0000000000#64 = .ok (.brd 0#8 0x4A#8 0x00#8) ∧
  decode 0x2001130000000000#64 = .ok (.rdreg 1#8 0x13#8) ∧
  decode 0x210113DF01050000#64 = .ok (.wrfld 1#8 0x13#8 0xDF#8 0x01#8 5#8) ∧
  decode 0x3504000000000000#64 = .ok (.modewr 4#8) ∧
  decode 0x40016400005A0000#64 = .ok (.rot 1#8 100#8 0x005A0000#32) ∧
  decode 0x4101FF0000000000#64 = .ok (.pwmwr 1#8 255#8)

/-! ### Steps, refusals and responses -/

/-- 10_state.md R11, R20, R26: a block turn presents the next word while `SEQ` is Idle, advances the operation in progress
by one phase otherwise, and does nothing when the host sends nothing (log entries 1, 10, 22). -/
def Obligations.StepRunsTheDecodedInstruction : Prop :=
  ∀ (s : State) (rest : List Turn), s.agenda = .block :: rest →
    (∀ w ws i, s.seq = none → s.cmds = w :: ws → decode w = .ok i →
      step s = exec i { s with agenda := rest, cmds := ws }) ∧
    (∀ p, s.seq = some p → step s = exec p.op { s with agenda := rest }) ∧
    (s.seq = none → s.cmds = [] → step s = .next { s with agenda := rest })

/-- 30_encoding.md R56: a word that matches no row is answered `ILLEGAL_CMD`, data 0, with its own opcode byte copied
(R53), and changes no state; the all-zero and the all-ones word are such words. -/
def Obligations.IllegalWordAnswersIllegalCmd : Prop :=
  (∀ (s : State) (rest : List Turn) (w : CmdWord) (ws : List CmdWord),
    s.agenda = .block :: rest → s.seq = none → s.cmds = w :: ws →
    (∀ r ∈ opcodeTable, w &&& r.mask ≠ r.value) →
    step s = .next { s with agenda := rest, cmds := ws,
                            rsps := s.rsps ++ [rspOf (w.extractLsb' 56 8) 0x02#8 0#32] }) ∧
  (∀ r ∈ opcodeTable, 0#64 &&& r.mask ≠ r.value) ∧
  (∀ r ∈ opcodeTable, 0xFFFFFFFFFFFFFFFF#64 &&& r.mask ≠ r.value)

/-- 30_encoding.md R55, R57, 60_exceptions.md R161: an operand outside its range is answered `ILLEGAL_OPERAND` and changes
no state, whatever the device id and the register address are. -/
def Obligations.OperandOutOfRangeAnswersIllegalOperand : Prop :=
  ∀ s : State, s.seq = none →
    (∀ bus addr reg data, (s.cfg.nbus ≤ bus.toNat ∨ 0x80 ≤ addr.toNat) →
      exec (.bwr bus addr reg data) s = .next { s with rsps := s.rsps ++ [rspOf 0x10#8 0x03#8 0#32] }) ∧
    (∀ bus addr reg, (s.cfg.nbus ≤ bus.toNat ∨ 0x80 ≤ addr.toNat) →
      exec (.brd bus addr reg) s = .next { s with rsps := s.rsps ++ [rspOf 0x11#8 0x03#8 0#32] }) ∧
    (∀ dev reg mask bits shift, 8 ≤ shift.toNat →
      exec (.wrfld dev reg mask bits shift) s = .next { s with rsps := s.rsps ++ [rspOf 0x21#8 0x03#8 0#32] }) ∧
    (∀ mode, 6 ≤ mode.toNat →
      exec (.modewr mode) s = .next { s with rsps := s.rsps ++ [rspOf 0x35#8 0x03#8 0#32] }) ∧
    (∀ cw speed angle, 2 ≤ cw.toNat →
      exec (.rot cw speed angle) s = .next { s with rsps := s.rsps ++ [rspOf 0x40#8 0x03#8 0#32] }) ∧
    (∀ ch duty, 2 ≤ ch.toNat →
      exec (.pwmwr ch duty) s = .next { s with rsps := s.rsps ++ [rspOf 0x41#8 0x03#8 0#32] })

/-- 41_register_codec.md R80: the device lookup and the register check of RDREG and WRFLD, in that order: either refusal
answers its status and changes no state, with no bus transaction; when both pass the key is the device's table entry. -/
def Obligations.CodecLookup : Prop :=
  ∀ (s : State) (dev reg : Byte), s.seq = none →
    ((dev.toNat < 1 ∨ 5 < dev.toNat) →
      exec (.rdreg dev reg) s = .next { s with rsps := s.rsps ++ [rspOf 0x20#8 0x04#8 0#32] } ∧
      ∀ mask bits shift, shift.toNat < 8 →
        exec (.wrfld dev reg mask bits shift) s = .next { s with rsps := s.rsps ++ [rspOf 0x21#8 0x04#8 0#32] }) ∧
    (∀ k, 1 ≤ dev.toNat → s.cfg.devTab[dev.toNat - 1]? = some k → reg ∉ s.cfg.legalRegs →
      exec (.rdreg dev reg) s = .next { s with rsps := s.rsps ++ [rspOf 0x20#8 0x05#8 0#32] } ∧
      ∀ mask bits shift, shift.toNat < 8 →
        exec (.wrfld dev reg mask bits shift) s = .next { s with rsps := s.rsps ++ [rspOf 0x21#8 0x05#8 0#32] }) ∧
    (∀ k, 1 ≤ dev.toNat → s.cfg.devTab[dev.toNat - 1]? = some k → reg ∈ s.cfg.legalRegs →
      lookup s.cfg dev reg = .ok k)

/-- 30_encoding.md R57: a refused command is a pure function of the word and the parameters: in two idle states with the
same parameters the same word is refused with the same status or in neither. -/
def Obligations.RefusalDependsOnWordAndParametersOnly : Prop :=
  ∀ (s t : State) (w : CmdWord) (st : Status), s.cfg = t.cfg → s.seq = none → t.seq = none →
    st ≠ .ok → st ≠ .busFail →
    present w s = .next (raise (w.extractLsb' 56 8) st s) → present w t = .next (raise (w.extractLsb' 56 8) st t)

/-- 30_encoding.md R53, 60_exceptions.md R161: the fields of a response word and the numbers of the six statuses. -/
def Obligations.ResponseWordLayout : Prop :=
  (∀ (op : Byte) (st : Status) (data : Word),
    (responseWord op st data).extractLsb' 56 8 = op ∧
    (responseWord op st data).extractLsb' 48 8 = st.code ∧
    (responseWord op st data).extractLsb' 32 16 = 0#16 ∧
    (responseWord op st data).extractLsb' 0 32 = if st = .ok then data else 0#32) ∧
  Status.code .ok = 0x00#8 ∧ Status.code .busFail = 0x01#8 ∧ Status.code .illegalCmd = 0x02#8 ∧
  Status.code .illegalOperand = 0x03#8 ∧ Status.code .noDevice = 0x04#8 ∧ Status.code .illegalReg = 0x05#8

/-! ### Operations of one step -/

/-- 42_encoder_tracker.md R93. -/
def Obligations.EncrdAnswersCount : Prop :=
  ∀ s : State, s.seq = none →
    exec .encrd s = .next { s with rsps := s.rsps ++ [rspOf 0x30#8 0x00#8 s.count] }

/-- 42_encoder_tracker.md R94: no revolution tick although the low four bits become 0. -/
def Obligations.EncclrClearsCount : Prop :=
  ∀ s : State, s.seq = none →
    exec .encclr s = .next { s with count := 0#32, rsps := s.rsps ++ [rspOf 0x31#8 0x00#8 0#32] }

/-- 42_encoder_tracker.md R95. -/
def Obligations.TmarkLatchesTick : Prop :=
  ∀ s : State, s.seq = none →
    exec .tmark s = .next { s with tStart := s.tick, rsps := s.rsps ++ [rspOf 0x32#8 0x00#8 0#32] }

/-- 42_encoder_tracker.md R96. -/
def Obligations.TmrdAnswersInterval : Prop :=
  ∀ s : State, s.seq = none →
    exec .tmrd s = .next { s with rsps := s.rsps ++ [rspOf 0x33#8 0x00#8 s.tModel] }

/-- 42_encoder_tracker.md R97. -/
def Obligations.ModerdAnswersMode : Prop :=
  ∀ s : State, s.seq = none →
    exec .moderd s = .next { s with rsps := s.rsps ++ [rspOf 0x34#8 0x00#8 (0#29 ++ s.mode)] }

/-- 42_encoder_tracker.md R98: any of the six modes from any mode; 6 and above are refused. -/
def Obligations.ModewrWritesMode : Prop :=
  ∀ (s : State) (mode : Byte), s.seq = none →
    (mode.toNat < 6 →
      exec (.modewr mode) s =
        .next { s with mode := mode.extractLsb' 0 3, rsps := s.rsps ++ [rspOf 0x35#8 0x00#8 0#32] }) ∧
    (6 ≤ mode.toNat →
      exec (.modewr mode) s = .next { s with rsps := s.rsps ++ [rspOf 0x35#8 0x03#8 0#32] })

/-- 43_rotation_controller.md R111: one duty is written and one event emitted, also when the value is unchanged. -/
def Obligations.PwmwrSetsOneDuty : Prop :=
  ∀ (s : State) (duty : Byte), s.seq = none →
    exec (.pwmwr 0#8 duty) s =
      .next { s with duty0 := duty, dutyHist := s.dutyHist ++ [⟨.ch0, duty⟩],
                     rsps := s.rsps ++ [rspOf 0x41#8 0x00#8 0#32] } ∧
    exec (.pwmwr 1#8 duty) s =
      .next { s with duty1 := duty, dutyHist := s.dutyHist ++ [⟨.ch1, duty⟩],
                     rsps := s.rsps ++ [rspOf 0x41#8 0x00#8 0#32] } ∧
    ∀ ch : Byte, 2 ≤ ch.toNat →
      exec (.pwmwr ch duty) s = .next { s with rsps := s.rsps ++ [rspOf 0x41#8 0x03#8 0#32] }

/-! ### Bus master and codec -/

/-- 40_bus_master.md R71, R72: an accepted BWR or BRD latches its key and waits for its one transaction. That
the acceptance is a step of its own is the model's reading (log entry 11). -/
def Obligations.BusOperationsAreAccepted : Prop :=
  ∀ (s : State) (bus addr reg : Byte), s.seq = none → bus.toNat < s.cfg.nbus → addr.toNat < 0x80 →
    (∀ data, exec (.bwr bus addr reg data) s =
      .next { s with seq := some ⟨.bwr bus addr reg data, .bus,
        { Work.fresh with key := ⟨bus, addr.extractLsb' 0 7⟩ }⟩ }) ∧
    exec (.brd bus addr reg) s =
      .next { s with seq := some ⟨.brd bus addr reg, .bus,
        { Work.fresh with key := ⟨bus, addr.extractLsb' 0 7⟩ }⟩ }

/-- 41_register_codec.md R80 to R82: an RDREG or WRFLD that passes its checks latches its key and waits for its read
phase. That the acceptance is a step of its own is the model's reading (log entry 11). -/
def Obligations.CodecOperationsAreAccepted : Prop :=
  ∀ (s : State) (dev reg : Byte) (k : Key), s.seq = none →
    1 ≤ dev.toNat → s.cfg.devTab[dev.toNat - 1]? = some k → reg ∈ s.cfg.legalRegs →
    exec (.rdreg dev reg) s = .next { s with seq := some ⟨.rdreg dev reg, .rd, { Work.fresh with key := k }⟩ } ∧
    ∀ mask bits shift, shift.toNat < 8 →
      exec (.wrfld dev reg mask bits shift) s =
        .next { s with seq := some ⟨.wrfld dev reg mask bits shift, .rd, { Work.fresh with key := k }⟩ }

/-- 40_bus_master.md R71: phase BUS of BWR, whatever the answer to its one transaction is, in one step (log
entries 2, 12). -/
def Obligations.BwrWritesOneByte : Prop :=
  ∀ (s : State) (bus addr reg data : Byte) (w : Work) (r : BusReply) (rest : List BusReply) (d : Nat),
    s.seq = some ⟨.bwr bus addr reg data, .bus, w⟩ → AnsweredBy s w.key reg r rest d →
    exec (.bwr bus addr reg data) s =
      .next { s with seq := none, replies := rest, draws := d,
                     busHist := s.busHist ++ [.write w.key reg data (failureOf r)],
                     mem := cellsAfter s w.key reg data r,
                     rsps := s.rsps ++ [rspOf 0x10#8 (if failureOf r = none then 0x00#8 else 0x01#8) 0#32] }

/-- 40_bus_master.md R72: phase BUS of BRD: the byte with `OK`, or 0 with `BUS_FAIL`, in one step (log entries
2, 12). -/
def Obligations.BrdReadsOneByte : Prop :=
  ∀ (s : State) (bus addr reg : Byte) (w : Work) (r : BusReply) (rest : List BusReply) (d : Nat),
    s.seq = some ⟨.brd bus addr reg, .bus, w⟩ → AnsweredBy s w.key reg r rest d →
    exec (.brd bus addr reg) s =
      .next { s with seq := none, replies := rest, draws := d,
                     busHist := s.busHist ++ [.read w.key reg (byteOf r) (failureOf r)],
                     rsps := s.rsps ++ [rspOf 0x11#8 (if failureOf r = none then 0x00#8 else 0x01#8)
                                          (0#24 ++ byteOf r)] }

/-- 41_register_codec.md R81: phase RD of RDREG: one read transaction, the byte unmasked and unshifted, in
one step (log entries 2, 12). -/
def Obligations.RdregReadsOneByte : Prop :=
  ∀ (s : State) (dev reg : Byte) (w : Work) (r : BusReply) (rest : List BusReply) (d : Nat),
    s.seq = some ⟨.rdreg dev reg, .rd, w⟩ → AnsweredBy s w.key reg r rest d →
    exec (.rdreg dev reg) s =
      .next { s with seq := none, replies := rest, draws := d,
                     busHist := s.busHist ++ [.read w.key reg (byteOf r) (failureOf r)],
                     rsps := s.rsps ++ [rspOf 0x20#8 (if failureOf r = none then 0x00#8 else 0x01#8)
                                          (0#24 ++ byteOf r)] }

/-- 41_register_codec.md R82, R83 (g): phase RD of WRFLD: a failed read under `abort` ends the operation with no write;
otherwise `OLD` is the byte read, 0 after a failed read, and the write phase is next (log entries 2, 12,
15). -/
def Obligations.WrfldReadPhase : Prop :=
  ∀ (s : State) (dev reg mask bits shift : Byte) (w : Work) (r : BusReply) (rest : List BusReply) (d : Nat),
    s.seq = some ⟨.wrfld dev reg mask bits shift, .rd, w⟩ → AnsweredBy s w.key reg r rest d →
    (failureOf r ≠ none → s.cfg.rmwOnReadFail = .abort →
      exec (.wrfld dev reg mask bits shift) s =
        .next { s with seq := none, replies := rest, draws := d,
                       busHist := s.busHist ++ [.read w.key reg 0#8 (failureOf r)],
                       rsps := s.rsps ++ [rspOf 0x21#8 0x01#8 0#32] }) ∧
    (failureOf r ≠ none → s.cfg.rmwOnReadFail = .proceedWithZero →
      exec (.wrfld dev reg mask bits shift) s =
        .next { s with seq := some ⟨.wrfld dev reg mask bits shift, .wr, { w with old := 0#8, readOk := false }⟩,
                       replies := rest, draws := d,
                       busHist := s.busHist ++ [.read w.key reg 0#8 (failureOf r)] }) ∧
    (∀ byte, r = .done byte →
      exec (.wrfld dev reg mask bits shift) s =
        .next { s with seq := some ⟨.wrfld dev reg mask bits shift, .wr, { w with old := byte, readOk := true }⟩,
                       replies := rest, draws := d,
                       busHist := s.busHist ++ [.read w.key reg byte none] })

/-- 41_register_codec.md R82: phase WR of WRFLD: one write of `(OLD & mask) | trunc_8(bits << shift)`, and `OK` only if
both transactions succeeded (log entries 2, 12, 15). -/
def Obligations.WrfldWritePhase : Prop :=
  ∀ (s : State) (dev reg mask bits shift : Byte) (w : Work) (r : BusReply) (rest : List BusReply) (d : Nat),
    s.seq = some ⟨.wrfld dev reg mask bits shift, .wr, w⟩ → AnsweredBy s w.key reg r rest d →
    exec (.wrfld dev reg mask bits shift) s =
      .next { s with seq := none, replies := rest, draws := d,
                     busHist := s.busHist ++
                       [.write w.key reg ((w.old &&& mask) ||| BitVec.ofNat 8 (bits.toNat * 2 ^ shift.toNat))
                         (failureOf r)],
                     mem := cellsAfter s w.key reg
                       ((w.old &&& mask) ||| BitVec.ofNat 8 (bits.toNat * 2 ^ shift.toNat)) r,
                     rsps := s.rsps ++
                       [rspOf 0x21#8 (if failureOf r = none ∧ w.readOk = true then 0x00#8 else 0x01#8) 0#32] }

/-- 41_register_codec.md R82, R83 (a) to (f), bit by bit: a 1 in `mask` keeps the old bit, the shifted field is ORed in
unconditionally, its bits above bit 7 are discarded. -/
def Obligations.WrfldByteBitByBit : Prop :=
  ∀ (old mask bits shift : Byte) (n : Nat), shift.toNat < 8 → n < 8 →
    (newByte old mask bits shift).getLsbD n =
      ((old.getLsbD n && mask.getLsbD n) || (decide (shift.toNat ≤ n) && bits.getLsbD (n - shift.toNat)))

/-- 20_memory.md R34, R37 (frame): a BWR or the write phase of WRFLD changes no cell but the one it addresses, in no
environment; on the test bench the byte is then in that cell (log entry 3). -/
def Obligations.StoreTouchesOneCell : Prop :=
  ∀ (s t : State) (p : InProgress) (reg v : Byte), s.seq = some p →
    ((∃ bus addr, p.op = .bwr bus addr reg v ∧ p.ph = .bus) ∨
     (∃ dev mask bits shift, p.op = .wrfld dev reg mask bits shift ∧ p.ph = .wr ∧
       v = newByte p.work.old mask bits shift)) →
    exec p.op s = .next t →
    (∀ a, a ≠ cellAddr p.work.key reg → Memory.read t.mem a = Memory.read s.mem a) ∧
    (s.env = .bench → p.work.key ∈ s.wired → s.replies = [] →
      Memory.read t.mem (cellAddr p.work.key reg) = some v)

/-- 20_memory.md R31: different cells of the slave register space have different addresses. -/
def Obligations.SlaveCellsAreDistinct : Prop :=
  ∀ (k k' : Key) (reg reg' : Byte), cellAddr k reg = cellAddr k' reg' → k = k' ∧ reg = reg'

/-- 41_register_codec.md R82 under the simulator slave of 20_memory.md R34, from the command word to the slave's cell:
three steps, one read and one write transaction, one response (log entries 1, 3, 11). -/
def Obligations.WrfldUpdatesTheSlaveField : Prop :=
  ∀ (s : State) (dev reg mask bits shift : Byte) (k : Key) (ws : List CmdWord),
    s.env = .bench → s.agenda = [] → s.replies = [] → s.seq = none →
    s.cmds = encode (.wrfld dev reg mask bits shift) :: ws →
    shift.toNat < 8 → 1 ≤ dev.toNat → s.cfg.devTab[dev.toNat - 1]? = some k → reg ∈ s.cfg.legalRegs → k ∈ s.wired →
    runs 3 s =
      .next { s with cmds := ws,
                     mem := Memory.write s.mem (cellAddr k reg)
                       (newByte (cellByte s.mem (cellAddr k reg)) mask bits shift),
                     busHist := s.busHist ++
                       [.read k reg (cellByte s.mem (cellAddr k reg)) none,
                        .write k reg (newByte (cellByte s.mem (cellAddr k reg)) mask bits shift) none],
                     rsps := s.rsps ++ [rspOf 0x21#8 0x00#8 0#32] }

/-- 20_memory.md R34: the simulator slave is a memory: a byte written by BWR is what BRD of the same cell answers
(log entries 1, 3, 11). -/
def Obligations.BenchReadAfterWrite : Prop :=
  ∀ (s : State) (bus addr reg v : Byte) (ws : List CmdWord),
    s.env = .bench → s.agenda = [] → s.replies = [] → s.seq = none →
    s.cmds = encode (.bwr bus addr reg v) :: encode (.brd bus addr reg) :: ws →
    bus.toNat < s.cfg.nbus → addr.toNat < 0x80 → (⟨bus, addr.extractLsb' 0 7⟩ : Key) ∈ s.wired →
    ∃ t, runs 4 s = .next t ∧ t.seq = none ∧ t.cmds = ws ∧
      t.rsps = s.rsps ++ [rspOf 0x10#8 0x00#8 0#32, rspOf 0x11#8 0x00#8 (0#24 ++ v)]

/-- 20_memory.md R41, 70_reset_and_hazards.md R193: a change the slave makes to the register between the two phases of
WRFLD is overwritten with the byte computed from the value read before it, on the test bench (log entries 3, 23). -/
def Obligations.WrfldGapLosesTheSlaveChange : Prop :=
  ∀ (s : State) (dev reg mask bits shift v : Byte) (w : Work) (rest : List Turn),
    s.env = .bench → s.replies = [] → w.key ∈ s.wired →
    s.seq = some ⟨.wrfld dev reg mask bits shift, .rd, w⟩ →
    s.agenda = .block :: .slave w.key reg v :: .block :: rest →
    ∃ t, runs 3 s = .next t ∧ t.seq = none ∧ t.agenda = rest ∧
      Memory.read t.mem (cellAddr w.key reg) =
        some (newByte (cellByte s.mem (cellAddr w.key reg)) mask bits shift)

/-- 40_bus_master.md R73, R74: `ok` holds exactly when every acknowledge bit of the slave in the frame is ACK, and the
frames of the successful transactions are these: the model's derived view (log entry 16). -/
def Obligations.WireFrames : Prop :=
  (∀ (restart : Bool) (x : BusTxn) (f : List WireItem), x.frame restart = some f → allAcknowledged f = x.ok) ∧
  (∀ (restart : Bool) (k : Key) (reg v : Byte),
    BusTxn.frame restart (.write k reg v none) =
      some [.start, .master (k.addr ++ 0#1), .slaveAck false, .master reg, .slaveAck false, .master v,
        .slaveAck false, .stop]) ∧
  (∀ (k : Key) (reg v : Byte),
    BusTxn.frame true (.read k reg v none) =
      some [.start, .master (k.addr ++ 0#1), .slaveAck false, .master reg, .slaveAck false, .start,
        .master (k.addr ++ 1#1), .slaveAck false, .slave v, .masterAck true, .stop] ∧
    BusTxn.frame false (.read k reg v none) =
      some [.start, .master (k.addr ++ 0#1), .slaveAck false, .master reg, .slaveAck false, .stop, .start,
        .master (k.addr ++ 1#1), .slaveAck false, .slave v, .masterAck true, .stop])

/-- 20_memory.md R39, 40_bus_master.md R70, R76: a step makes at most one transaction, and only for the bus or codec
operation in progress, in one of its transaction phases. -/
def Obligations.OneTransactionAtATime : Prop :=
  ∀ s t : State, step s = .next t →
    t.busHist = s.busHist ∨
    ∃ x p, t.busHist = s.busHist ++ [x] ∧ s.seq = some p ∧ (p.ph = .bus ∨ p.ph = .rd ∨ p.ph = .wr)

/-- 40_bus_master.md R78: an edge that falls inside a bus operation's step commutes with it, and so does a tick. -/
def Obligations.EventsCommuteWithBusSteps : Prop :=
  ∀ (s t : State) (p : InProgress) (b : Bool), s.seq = some p → (p.ph = .bus ∨ p.ph = .rd ∨ p.ph = .wr) →
    exec p.op s = .next t →
    exec p.op (edge b s) = .next (edge b t) ∧ exec p.op (tickAdvance s) = .next (tickAdvance t)

/-! ### Encoder tracker -/

/-- 42_encoder_tracker.md R90, R91, R92: the edge handler, one step, whatever the sequencer is doing. The revolution
tick by position modulo 16 is the spec's own reading (R91, log entry 21). -/
def Obligations.EdgeHandler : Prop :=
  ∀ (s : State) (b : Bool) (rest : List Turn) (c : Word), s.agenda = .edge b :: rest →
    c = (if b = s.cfg.encIncLevel then s.count + 1#32 else s.count - 1#32) →
    (¬ (c.extractLsb' 0 4 = 0#4 ∧ s.mode = 2#3) → step s = .next { s with agenda := rest, count := c }) ∧
    (c.extractLsb' 0 4 = 0#4 → s.mode = 2#3 →
      step s = .next { s with agenda := rest, count := c, tModel := s.tick - s.tStart, mode := 3#3 })

/-- 42_encoder_tracker.md R91, R92 (the property of WRIST §8): from a cleared counter in mode Model, fifteen edges one way
leave the mode, the sixteenth records the elapsed ticks and sets Modeled, whatever ticks fall between
(log entries 17, 21: no edge is lost). -/
def Obligations.SixteenPulsesEndModelling : Prop :=
  ∀ (s : State) (l rest : List Turn) (b : Bool), s.mode = 2#3 → s.count = 0#32 →
    (∀ x ∈ l, x = .edge b ∨ x = .tick) → l.count (.edge b) = 15 → s.agenda = l ++ .edge b :: rest →
    (∃ t, runs l.length s = .next t ∧ t.mode = 2#3 ∧ t.tModel = s.tModel) ∧
    (∃ t, runs (l.length + 1) s = .next t ∧ t.mode = 3#3 ∧
      t.tModel = s.tick + BitVec.ofNat 32 (l.count .tick) - s.tStart ∧
      t.count = if b = s.cfg.encIncLevel then 16#32 else 0xFFFFFFF0#32)

/-- 10_state.md R11, 60_exceptions.md R163, R166: an event leaves the sequencer, the port, the bus and the duties alone. -/
def Obligations.EventsLeaveTheSequencer : Prop :=
  ∀ s t : State, (nextTurn s).1 ≠ .block → step s = .next t →
    t.seq = s.seq ∧ t.cmds = s.cmds ∧ t.rsps = s.rsps ∧ t.busHist = s.busHist ∧ t.dutyHist = s.dutyHist ∧
    t.duty0 = s.duty0 ∧ t.duty1 = s.duty1 ∧ t.tStart = s.tStart ∧ t.replies = s.replies ∧ t.cfg = s.cfg

/-! ### Rotation controller -/

/-- 43_rotation_controller.md R112: the acceptance of ROT, in which `TARGET` is computed (the model's reading, log entry
11), and its phases R0, R1, R2. -/
def Obligations.RotLatchesItsSnapshots : Prop :=
  ∀ (s : State) (cw speed : Byte) (angle : Word) (w : Work),
    (s.seq = none → cw.toNat < 2 →
      exec (.rot cw speed angle) s =
        .next { s with seq := some ⟨.rot cw speed angle, .r0, { Work.fresh with target := target angle }⟩ }) ∧
    (s.seq = some ⟨.rot cw speed angle, .r0, w⟩ →
      exec (.rot cw speed angle) s =
        .next { s with seq := some ⟨.rot cw speed angle, .r1, { w with start := s.count }⟩ }) ∧
    (s.seq = some ⟨.rot cw speed angle, .r1, w⟩ →
      exec (.rot cw speed angle) s =
        .next { s with seq := some ⟨.rot cw speed angle, .r2, { w with t0 := s.tick }⟩ }) ∧
    (s.seq = some ⟨.rot cw speed angle, .r2, w⟩ →
      exec (.rot cw speed angle) s =
        .next { s with seq := some ⟨.rot cw speed angle, .r3, { w with cur := s.count }⟩ })

/-- 43_rotation_controller.md R112, R115 to R118: phase R3: brake and answer when reached or timed out, else drive one
channel and go round again. -/
def Obligations.RotDrivesOrBrakes : Prop :=
  ∀ (s : State) (cw speed : Byte) (angle : Word) (w : Work),
    s.seq = some ⟨.rot cw speed angle, .r3, w⟩ →
    ((w.target.toNat ≤ (delta w.start w.cur).toNat ∨ 1000 ≤ (s.tick - w.t0).toNat) →
      exec (.rot cw speed angle) s =
        .next { s with seq := none, duty0 := 255#8, duty1 := 255#8,
                       dutyHist := s.dutyHist ++ [⟨.ch0, 255#8⟩, ⟨.ch1, 255#8⟩],
                       rsps := s.rsps ++ [rspOf 0x40#8 0x00#8
                         ((if w.target.toNat ≤ (delta w.start w.cur).toNat then 1#32 else 0#32) +
                          (if 1000 ≤ (s.tick - w.t0).toNat then 2#32 else 0#32))] }) ∧
    ((delta w.start w.cur).toNat < w.target.toNat → (s.tick - w.t0).toNat < 1000 → cw = 1#8 →
      exec (.rot cw speed angle) s =
        .next { s with seq := some ⟨.rot cw speed angle, .r2,
                         { w with delta := delta w.start w.cur, err := w.target - delta w.start w.cur }⟩,
                       duty0 := speed, duty1 := 0#8,
                       dutyHist := s.dutyHist ++ [⟨.ch0, speed⟩, ⟨.ch1, 0#8⟩] }) ∧
    ((delta w.start w.cur).toNat < w.target.toNat → (s.tick - w.t0).toNat < 1000 → cw ≠ 1#8 →
      exec (.rot cw speed angle) s =
        .next { s with seq := some ⟨.rot cw speed angle, .r2,
                         { w with delta := delta w.start w.cur, err := w.target - delta w.start w.cur }⟩,
                       duty0 := 0#8, duty1 := speed,
                       dutyHist := s.dutyHist ++ [⟨.ch0, 0#8⟩, ⟨.ch1, speed⟩] })

/-- 43_rotation_controller.md R114, 42_encoder_tracker.md R100: the pulse delta is the magnitude of the signed movement,
across a wrap too, and does not depend on its direction. -/
def Obligations.DeltaIsTheMagnitudeOfTheMovement : Prop :=
  ∀ start cur : Word,
    (delta start cur).toNat = (cur - start).toInt.natAbs ∧ delta start cur = delta cur start

/-- 43_rotation_controller.md R113: the target, computed in unbounded integers, fits its register, and is the nearest
number of pulses to `angle / 65536` degrees, ties upward. -/
def Obligations.TargetRoundsTheAngle : Prop :=
  ∀ angle : Word,
    (target angle).toNat = (896 * angle.toNat + 589824) / 1179648 ∧
    (target angle).toNat ≤ 3262236 ∧
    2 * 17920 * angle.toNat < (2 * (target angle).toNat + 1) * (360 * 65536) ∧
    (2 * (target angle).toNat) * (360 * 65536) ≤ 2 * 17920 * angle.toNat + 360 * 65536

/-- 43_rotation_controller.md R116, R121: once 1000 ticks have passed since `T0`, the next two block turns end ROT with
the brake on and `TIMEOUT` set. -/
def Obligations.RotEndsOnceTheTimeoutHasPassed : Prop :=
  ∀ (s : State) (cw speed : Byte) (angle : Word) (w : Work) (rest : List Turn),
    s.seq = some ⟨.rot cw speed angle, .r2, w⟩ → 1000 ≤ (s.tick - w.t0).toNat →
    s.agenda = .block :: .block :: rest →
    ∃ t data, runs 2 s = .next t ∧ t.seq = none ∧ t.duty0 = 255#8 ∧ t.duty1 = 255#8 ∧ t.agenda = rest ∧
      t.rsps = s.rsps ++ [rspOf 0x40#8 0x00#8 data] ∧ data.getLsbD 1 = true

/-- 43_rotation_controller.md R119: from its acceptance to its response, with any events between its phases, ROT emits
the drive pattern zero or more times and then, with the response, the brake pattern once. -/
def Obligations.RotDutyHistory : Prop :=
  ∀ (n : Nat) (s t : State) (cw speed : Byte) (angle : Word) (w : Work),
    s.seq = some ⟨.rot cw speed angle, .r0, w⟩ → runs n s = .next t →
    (∀ m u, m < n → runs m s = .next u → u.seq ≠ none) →
    ∃ k, t.dutyHist = s.dutyHist ++
      (List.replicate k (if cw = 1#8 then [⟨.ch0, speed⟩, ⟨.ch1, 0#8⟩] else [⟨.ch0, 0#8⟩, ⟨.ch1, speed⟩])).flatten ++
      (if t.seq = none then [⟨.ch0, 255#8⟩, ⟨.ch1, 255#8⟩] else [])

/-! ### The whole machine -/

/-- 10_state.md R11, 43_rotation_controller.md R120: while an operation is in progress no step accepts a command, and the
sequencer holds that same operation until it ends. -/
def Obligations.BusyPortAcceptsNothing : Prop :=
  ∀ (s t : State) (p : InProgress), s.seq = some p → step s = .next t →
    t.cmds = s.cmds ∧ ∀ q, t.seq = some q → q.op = p.op

/-- 30_encoding.md R53: every step keeps the account of commands and responses: what the host is owed and what it has been
given add up to the same number, and responses are only ever added at the end (log entries 10, 26). -/
def Obligations.OneResponsePerCommand : Prop :=
  ∀ s t : State, step s = .next t →
    t.rsps.length + owed t = s.rsps.length + owed s ∧ ∃ more, t.rsps = s.rsps ++ more ∧ more.length ≤ 1

/-- The invariant `Inv` (parameters and wiring on existing ports, SEQ legal, MODE legal, memory canonical and of wired keys
only, responses of the form of R53) is kept by every step. -/
def Obligations.EveryStepKeepsTheInvariant : Prop :=
  ∀ s t : State, Inv s → step s = .next t → Inv t

/-- The invariant holds after reset. -/
def Obligations.ResetMeetsTheInvariant : Prop :=
  Inv State.reset

/-- 60_exceptions.md R160, 70_reset_and_hazards.md R207: no step from a state that meets the invariant stops. -/
def Obligations.TheBlockNeverStops : Prop :=
  ∀ s : State, Inv s → ∃ t, step s = .next t

/-- 10_state.md R12: `COUNT` changes only by an edge or by ENCCLR. -/
def Obligations.CountWriters : Prop :=
  ∀ s t : State, step s = .next t → t.count ≠ s.count →
    (∃ b, (nextTurn s).1 = .edge b) ∨
    ((nextTurn s).1 = .block ∧ s.seq = none ∧ ∃ w ws, s.cmds = w :: ws ∧ decode w = .ok .encclr ∧ t.count = 0#32)

/-- 10_state.md R13, R14, R15: `TICK` changes only by the tick agent, `T_START` only by TMARK, `T_MODEL` only by an edge
in mode Model. -/
def Obligations.TimeRegisterWriters : Prop :=
  ∀ s t : State, step s = .next t →
    (t.tick ≠ s.tick → (nextTurn s).1 = .tick ∧ t.tick = s.tick + 1#32) ∧
    (t.tStart ≠ s.tStart → (nextTurn s).1 = .block ∧ s.seq = none ∧
      ∃ w ws, s.cmds = w :: ws ∧ decode w = .ok .tmark ∧ t.tStart = s.tick) ∧
    (t.tModel ≠ s.tModel → (∃ b, (nextTurn s).1 = .edge b) ∧ s.mode = 2#3 ∧ t.mode = 3#3 ∧
      t.tModel = s.tick - s.tStart)

/-- 10_state.md R16: `MODE` changes only by MODEWR, or from 2 to 3 by an edge. -/
def Obligations.ModeWriters : Prop :=
  ∀ s t : State, step s = .next t → t.mode ≠ s.mode →
    ((∃ b, (nextTurn s).1 = .edge b) ∧ s.mode = 2#3 ∧ t.mode = 3#3) ∨
    ((nextTurn s).1 = .block ∧ s.seq = none ∧
      ∃ w ws m, s.cmds = w :: ws ∧ decode w = .ok (.modewr m) ∧ m.toNat < 6 ∧ t.mode = m.extractLsb' 0 3)

/-- 10_state.md R17, 43_rotation_controller.md R111, R117, R118: a duty changes only by PWMWR or by phase R3 of ROT, and the
step that changes it appends its `PwmSet` event with the new value: PWMWR's one, on the channel and with the duty it names,
the other channel untouched; or ROT's two, channel 0 first, braking or driving. -/
def Obligations.DutyWriters : Prop :=
  ∀ s t : State, step s = .next t → (t.duty0 ≠ s.duty0 ∨ t.duty1 ≠ s.duty1) →
    (nextTurn s).1 = .block ∧
    ((s.seq = none ∧ ∃ w ws ch d, s.cmds = w :: ws ∧ decode w = .ok (.pwmwr ch d) ∧
        ((ch = 0#8 ∧ t.duty0 = d ∧ t.duty1 = s.duty1 ∧ t.dutyHist = s.dutyHist ++ [⟨.ch0, t.duty0⟩]) ∨
         (ch = 1#8 ∧ t.duty1 = d ∧ t.duty0 = s.duty0 ∧ t.dutyHist = s.dutyHist ++ [⟨.ch1, t.duty1⟩]))) ∨
     (∃ cw speed angle w, s.seq = some ⟨.rot cw speed angle, .r3, w⟩ ∧
        t.dutyHist = s.dutyHist ++ [⟨.ch0, t.duty0⟩, ⟨.ch1, t.duty1⟩] ∧
        ((t.seq = none ∧ t.duty0 = 255#8 ∧ t.duty1 = 255#8) ∨
         (t.seq ≠ none ∧ t.duty0 = (if cw = 1#8 then speed else 0#8) ∧
           t.duty1 = (if cw = 1#8 then 0#8 else speed)))))

/-- 10_state.md R18: no step writes the device table or any other parameter; nor is the environment's kind or its wiring
changed. -/
def Obligations.ParametersNeverChange : Prop :=
  ∀ s t : State, step s = .next t → t.cfg = s.cfg ∧ t.env = s.env ∧ t.wired = s.wired

/-- 20_memory.md R34, R38: on the simulator slaves a cell changes only by a write transaction of the block or by the
slave's own change. -/
def Obligations.CellWriters : Prop :=
  ∀ s t : State, step s = .next t → t.mem ≠ s.mem →
    (∃ k reg v, (nextTurn s).1 = .slave k reg v ∧ k ∈ s.wired ∧ t.mem = Memory.write s.mem (cellAddr k reg) v) ∨
    (∃ k reg v f, k ∈ s.wired ∧ t.busHist = s.busHist ++ [.write k reg v f] ∧
      t.mem = Memory.write s.mem (cellAddr k reg) v)

/-- 10_state.md R27, 70_reset_and_hazards.md R190: after reset the block is idle and ready: the first command may read
`COUNT` and finds 0, may read `MODE` and finds Idle, or an edge may come before any command; level 0 increments,
the default of ENC_INC_LEVEL (00_scope.md R6, 42_encoder_tracker.md R90; log entries 1, 7, 10). -/
def Obligations.ResetIsIdleWithCountAndModeZero : Prop :=
  (∃ t, step (State.reset.withFetchWord 64 0x3000000000000000) = .next t ∧ t.rsps = [0x3000000000000000#64]) ∧
  (∃ t, step (State.reset.withFetchWord 64 0x3400000000000000) = .next t ∧ t.rsps = [0x3400000000000000#64]) ∧
  (∀ b rest, ∃ t, step { State.reset with agenda := .edge b :: rest } = .next t ∧ t.seq = none ∧ t.mode = 0#3 ∧
    t.count = if b = false then 1#32 else 0xFFFFFFFF#32)

/-- 30_encoding.md R61: MODELBEGIN, with no event between its commands, marks the tick, clears the counter and enters
Model; BRAKE and COAST set both duties; WRREG writes a whole register, after reading it (on the test bench, log entries 1,
3, 11, 29). -/
def Obligations.PseudoOperationsDoWhatTheyStandFor : Prop :=
  ∀ (s : State) (ws : List CmdWord), s.env = .bench → s.agenda = [] → s.seq = none →
    (s.cmds = Pseudo.modelbegin.expand.map encode ++ ws →
      runs 3 s = .next { s with
        cmds := ws, tStart := s.tick, count := 0#32, mode := 2#3,
        rsps := s.rsps ++ [rspOf 0x32#8 0#8 0#32, rspOf 0x31#8 0#8 0#32, rspOf 0x35#8 0#8 0#32] }) ∧
    (s.cmds = Pseudo.brake.expand.map encode ++ ws →
      runs 2 s = .next { s with
        cmds := ws, duty0 := 255#8, duty1 := 255#8,
        dutyHist := s.dutyHist ++ [⟨.ch0, 255#8⟩, ⟨.ch1, 255#8⟩],
        rsps := s.rsps ++ [rspOf 0x41#8 0#8 0#32, rspOf 0x41#8 0#8 0#32] }) ∧
    (s.cmds = Pseudo.coast.expand.map encode ++ ws →
      runs 2 s = .next { s with
        cmds := ws, duty0 := 0#8, duty1 := 0#8,
        dutyHist := s.dutyHist ++ [⟨.ch0, 0#8⟩, ⟨.ch1, 0#8⟩],
        rsps := s.rsps ++ [rspOf 0x41#8 0#8 0#32, rspOf 0x41#8 0#8 0#32] }) ∧
    (∀ (dev reg v : Byte) (k : Key), s.cmds = (Pseudo.wrreg dev reg v).expand.map encode ++ ws → s.replies = [] →
      1 ≤ dev.toNat → s.cfg.devTab[dev.toNat - 1]? = some k → reg ∈ s.cfg.legalRegs → k ∈ s.wired →
      runs 3 s = .next { s with
        cmds := ws, mem := Memory.write s.mem (cellAddr k reg) v,
        busHist := s.busHist ++ [.read k reg (cellByte s.mem (cellAddr k reg)) none, .write k reg v none],
        rsps := s.rsps ++ [rspOf 0x21#8 0#8 0#32] })

/-- 10_state.md R18, 20_memory.md R31, 00_scope.md R6: from a state that meets the invariant a step makes no transaction but
with a slave on a port below `NBUS`, which is at most 4. -/
def Obligations.TransactionsReachExistingPorts : Prop :=
  ∀ (s t : State) (x : BusTxn), Inv s → step s = .next t → t.busHist = s.busHist ++ [x] →
    x.key.bus.toNat < s.cfg.nbus ∧ s.cfg.nbus ≤ 4

/-- 70_reset_and_hazards.md R207: where `endOf` ends the run of a program, the last command's response is given by the very
step that reaches that state, no earlier state of the run ends it, and taking more steps changes nothing: what follows is
no part of the run. -/
def Obligations.RunEndsAtTheLastResponse : Prop :=
  ∀ (n : Nat) (s t : State), owed s ≠ 0 → endOf n s = some t →
    (∃ m u r, m < n ∧ runs m s = .next u ∧ EndsAt u t ∧ t.rsps = u.rsps ++ [r] ∧
      ∀ j v, j ≤ m → runs j s = .next v → owed v ≠ 0) ∧
    t.seq = none ∧ t.cmds = [] ∧ t.rsps.length = s.rsps.length + owed s ∧
    ∀ k, endOf (n + k) s = some t

/-- 43_rotation_controller.md R112, R117 to R119: while ROT is in progress a step emits nothing and ROT goes on, or it is
phase R3 and emits the drive pattern and goes back to R2, or the brake pattern and ends. -/
def Obligations.RotStepDrivesBrakesOrWaits : Prop :=
  ∀ (s t : State) (cw speed : Byte) (angle : Word) (ph : Phase) (w : Work),
    s.seq = some ⟨.rot cw speed angle, ph, w⟩ → step s = .next t →
    (t.dutyHist = s.dutyHist ∧ ∃ ph' w', t.seq = some ⟨.rot cw speed angle, ph', w'⟩) ∨
    (ph = .r3 ∧ (nextTurn s).1 = .block ∧
      t.dutyHist = s.dutyHist ++
        (if cw = 1#8 then [⟨.ch0, speed⟩, ⟨.ch1, 0#8⟩] else [⟨.ch0, 0#8⟩, ⟨.ch1, speed⟩]) ∧
      ∃ w', t.seq = some ⟨.rot cw speed angle, .r2, w'⟩) ∨
    (ph = .r3 ∧ (nextTurn s).1 = .block ∧ t.dutyHist = s.dutyHist ++ [⟨.ch0, 255#8⟩, ⟨.ch1, 255#8⟩] ∧ t.seq = none)
end

