-- ==== Sys2Proof/Laws/Encoding.lean ====
section
/-! SUPPORT. Command words as concatenated fields: the arithmetic reading of a concatenation and of a field. -/

namespace Sys2Proof

/-- A concatenation as a number. -/
theorem toNat_concat {m n : Nat} (x : BitVec m) (y : BitVec n) : (x ++ y).toNat = x.toNat * 2 ^ n + y.toNat := by
  rw [BitVec.toNat_append, ← Nat.shiftLeft_add_eq_or_of_lt y.isLt, Nat.shiftLeft_eq]

/-- A field as a number. -/
theorem toNat_field {m : Nat} (w : BitVec m) (lo n : Nat) :
    (w.extractLsb' lo n).toNat = w.toNat / 2 ^ lo % 2 ^ n := by
  rw [BitVec.extractLsb'_toNat, Nat.shiftRight_eq_div_pow]

/-- A byte field as a number. -/
theorem toNat_fieldByte (w : CmdWord) (lo : Nat) : (fieldByte w lo).toNat = w.toNat / 2 ^ lo % 256 :=
  toNat_field w lo 8

/-- A zero field, as a number. -/
theorem lowZero_iff (w : CmdWord) (n : Nat) : lowZero w n = true ↔ w.toNat % 2 ^ n = 0 := by
  simp [lowZero, BitVec.toNat_eq]

/-- A format whose zero fields hold answers its operation. -/
theorem whenZero_ok {z : Bool} {i j : Instr} : whenZero z i = .ok j ↔ z = true ∧ i = j := by
  cases z <;> simp [whenZero]

/-- A byte names at most one opcode, and an opcode one byte (30_encoding.md R54). -/
theorem opcodeOf_eq_some {b : Byte} {o : Opcode} : opcodeOf b = some o ↔ b = o.byte := by
  constructor
  · intro h
    have := List.find?_some h
    exact (eq_of_beq this).symm
  · rintro rfl
    cases o <;> decide

/-- A word decodes by the opcode its top byte names. -/
theorem decode_eq {w : CmdWord} {o : Opcode} (h : fieldByte w 56 = o.byte) : decode w = decodeFields w o := by
  rw [decode, opcodeOf_eq_some.2 h]

/-- A word that decodes has an opcode byte of the map and passes that format's zero check. -/
theorem decode_ok {w : CmdWord} {i : Instr} (h : decode w = .ok i) :
    ∃ o : Opcode, fieldByte w 56 = o.byte ∧ decodeFields w o = .ok i := by
  unfold decode at h
  cases ho : opcodeOf (fieldByte w 56) with
  | none => simp [ho] at h
  | some o => exact ⟨o, opcodeOf_eq_some.1 ho, by simpa [ho] using h⟩

/-- A word as its opcode byte, a middle field and a low field. -/
theorem word_split (w : BitVec 64) (m n : Nat) (h : 8 + m + n = 64) :
    w = ((w.extractLsb' (m+n) 8 ++ w.extractLsb' n m) ++ w.extractLsb' 0 n).cast h := by
  apply BitVec.eq_of_toNat_eq
  rw [BitVec.toNat_cast, toNat_concat, toNat_concat, toNat_field, toNat_field, toNat_field]
  have hw := w.isLt
  have e : 2^(m+n) = 2^m * 2^n := Nat.pow_add ..
  have e8 : 2^64 = 256 * (2^m*2^n) := by rw [← e]; rw [← h]; rw [Nat.add_assoc, Nat.pow_add]
  rw [e, Nat.mul_comm (2^m), ← Nat.div_div_eq_div_mul]
  have hq : w.toNat / 2^n / 2^m < 256 := by
    rw [Nat.div_div_eq_div_mul]
    apply Nat.div_lt_of_lt_mul
    rw [Nat.mul_comm (2^n)]
    rw [e8] at hw; rw [Nat.mul_comm]; exact hw
  rw [Nat.mod_eq_of_lt (by simpa using hq)]
  simp only [pow_zero, Nat.div_one]
  rw [Nat.mul_comm _ (2^m), Nat.div_add_mod, Nat.mul_comm, Nat.div_add_mod]

/-- The comparison of 30_encoding.md R54 with a mask of the opcode byte and the low `n` bits: the opcode byte is the row's
and the low field is zero. -/
theorem masked_eq_iff (w : BitVec 64) (m n : Nat) (h : 8 + m + n = 64) (op : Byte) :
   w &&& ((0xFF#8 ++ 0#m) ++ BitVec.allOnes n).cast h = ((op ++ 0#m) ++ 0#n).cast h ↔ 
     w.extractLsb' (m+n) 8 = op ∧ w.extractLsb' 0 n = 0#n := by
  have hs := word_split w m n h
  generalize w.extractLsb' (m+n) 8 = a at *
  generalize w.extractLsb' n m = b at *
  generalize w.extractLsb' 0 n = c at *
  subst hs
  have : ∀ x y : BitVec (8+m+n), (x.cast h &&& y.cast h) = (x &&& y).cast h := by
    intro x y; apply BitVec.eq_of_toNat_eq; simp
  rw [this]
  have inj : ∀ x y : BitVec (8+m+n), x.cast h = y.cast h ↔ x = y := by
    intro x y; constructor
    · intro h; apply BitVec.eq_of_toNat_eq; simpa using congrArg BitVec.toNat h
    · rintro rfl; rfl
  rw [inj, BitVec.and_append, BitVec.and_append]
  have h255 : a &&& 255#8 = a := by
    rw [show (255#8) = BitVec.allOnes 8 from rfl, BitVec.and_allOnes]
  simp only [h255, BitVec.and_zero, BitVec.and_allOnes]
  constructor
  · intro h
    have := congrArg BitVec.toNat h
    rw [toNat_concat, toNat_concat, toNat_concat, toNat_concat] at this
    simp at this
    have hc := c.isLt
    constructor
    · apply BitVec.eq_of_toNat_eq
      have h2 : 0 < 2^m * 2^n := by positivity
      by_contra hne
      rcases Nat.lt_or_gt_of_ne hne with hlt | hgt
      · have h4 : (a.toNat + 1) * (2^m*2^n) ≤ op.toNat * (2^m*2^n) := Nat.mul_le_mul_right _ hlt
        have h5 : 2^n ≤ 2^m*2^n := Nat.le_mul_of_pos_left _ (by positivity)
        nlinarith
      · have h4 : (op.toNat + 1) * (2^m*2^n) ≤ a.toNat * (2^m*2^n) := Nat.mul_le_mul_right _ hgt
        nlinarith
    · have h6 := congrArg (· % 2^n) this
      simp [Nat.add_mod, Nat.mod_eq_of_lt hc] at h6
      apply BitVec.eq_of_toNat_eq; simpa using h6
  · rintro ⟨rfl, rfl⟩; rfl

/-! ### The word of an operation, as a number (30_encoding.md R51) -/

theorem encode_bwr_toNat (bus addr reg data : Byte) :
    (encode (.bwr bus addr reg data)).toNat = 0x10 * 2 ^ 56 + bus.toNat * 2 ^ 48 + addr.toNat * 2 ^ 40 + reg.toNat * 2 ^ 32 + data.toNat * 2 ^ 24 := by
  unfold encode
  rw [toNat_concat, toNat_concat, toNat_concat, toNat_concat, toNat_concat]
  simp only [Instr.opcode, Instr.op, Opcode.byte, BitVec.toNat_ofNat]
  omega

theorem encode_brd_toNat (bus addr reg : Byte) :
    (encode (.brd bus addr reg)).toNat = 0x11 * 2 ^ 56 + bus.toNat * 2 ^ 48 + addr.toNat * 2 ^ 40 + reg.toNat * 2 ^ 32 := by
  unfold encode
  rw [toNat_concat, toNat_concat, toNat_concat, toNat_concat]
  simp only [Instr.opcode, Instr.op, Opcode.byte, BitVec.toNat_ofNat]
  omega

theorem encode_rdreg_toNat (dev reg : Byte) :
    (encode (.rdreg dev reg)).toNat = 0x20 * 2 ^ 56 + dev.toNat * 2 ^ 48 + reg.toNat * 2 ^ 40 := by
  unfold encode
  rw [toNat_concat, toNat_concat, toNat_concat]
  simp only [Instr.opcode, Instr.op, Opcode.byte, BitVec.toNat_ofNat]
  omega

theorem encode_wrfld_toNat (dev reg mask bits shift : Byte) :
    (encode (.wrfld dev reg mask bits shift)).toNat = 0x21 * 2 ^ 56 + dev.toNat * 2 ^ 48 + reg.toNat * 2 ^ 40 + mask.toNat * 2 ^ 32 + bits.toNat * 2 ^ 24 + shift.toNat * 2 ^ 16 := by
  unfold encode
  rw [toNat_concat, toNat_concat, toNat_concat, toNat_concat, toNat_concat, toNat_concat]
  simp only [Instr.opcode, Instr.op, Opcode.byte, BitVec.toNat_ofNat]
  omega

theorem encode_modewr_toNat (mode : Byte) :
    (encode (.modewr mode)).toNat = 0x35 * 2 ^ 56 + mode.toNat * 2 ^ 48 := by
  unfold encode
  rw [toNat_concat, toNat_concat]
  simp only [Instr.opcode, Instr.op, Opcode.byte, BitVec.toNat_ofNat]
  omega

theorem encode_rot_toNat (cw speed : Byte) (angle : Word) :
    (encode (.rot cw speed angle)).toNat = 0x40 * 2 ^ 56 + cw.toNat * 2 ^ 48 + speed.toNat * 2 ^ 40 + angle.toNat * 2 ^ 0 := by
  unfold encode
  rw [toNat_concat, toNat_concat, toNat_concat, toNat_concat]
  simp only [Instr.opcode, Instr.op, Opcode.byte, BitVec.toNat_ofNat]
  omega

theorem encode_pwmwr_toNat (ch duty : Byte) :
    (encode (.pwmwr ch duty)).toNat = 0x41 * 2 ^ 56 + ch.toNat * 2 ^ 48 + duty.toNat * 2 ^ 40 := by
  unfold encode
  rw [toNat_concat, toNat_concat, toNat_concat]
  simp only [Instr.opcode, Instr.op, Opcode.byte, BitVec.toNat_ofNat]
  omega

end Sys2Proof
end

