-- ==== Sys2Proof/Laws/State.lean ====
section
/-! SUPPORT. What each field of the state is after each named update that always writes the same fields: one lemma per
field, true by unfolding, so that no later proof unfolds a record update. -/

namespace Sys2Proof.Machine

/-! ### respond -/

@[simp] theorem respond_cfg (op : Byte) (st : Status) (data : Word) (s : State) :
    (respond op st data s).cfg = s.cfg := rfl
@[simp] theorem respond_seq (op : Byte) (st : Status) (data : Word) (s : State) :
    (respond op st data s).seq = none := rfl
@[simp] theorem respond_count (op : Byte) (st : Status) (data : Word) (s : State) :
    (respond op st data s).count = s.count := rfl
@[simp] theorem respond_tick (op : Byte) (st : Status) (data : Word) (s : State) :
    (respond op st data s).tick = s.tick := rfl
@[simp] theorem respond_tStart (op : Byte) (st : Status) (data : Word) (s : State) :
    (respond op st data s).tStart = s.tStart := rfl
@[simp] theorem respond_tModel (op : Byte) (st : Status) (data : Word) (s : State) :
    (respond op st data s).tModel = s.tModel := rfl
@[simp] theorem respond_mode (op : Byte) (st : Status) (data : Word) (s : State) :
    (respond op st data s).mode = s.mode := rfl
@[simp] theorem respond_duty0 (op : Byte) (st : Status) (data : Word) (s : State) :
    (respond op st data s).duty0 = s.duty0 := rfl
@[simp] theorem respond_duty1 (op : Byte) (st : Status) (data : Word) (s : State) :
    (respond op st data s).duty1 = s.duty1 := rfl
@[simp] theorem respond_cmds (op : Byte) (st : Status) (data : Word) (s : State) :
    (respond op st data s).cmds = s.cmds := rfl
@[simp] theorem respond_rsps (op : Byte) (st : Status) (data : Word) (s : State) :
    (respond op st data s).rsps = s.rsps ++ [responseWord op st data] := rfl
@[simp] theorem respond_busHist (op : Byte) (st : Status) (data : Word) (s : State) :
    (respond op st data s).busHist = s.busHist := rfl
@[simp] theorem respond_dutyHist (op : Byte) (st : Status) (data : Word) (s : State) :
    (respond op st data s).dutyHist = s.dutyHist := rfl
@[simp] theorem respond_env (op : Byte) (st : Status) (data : Word) (s : State) :
    (respond op st data s).env = s.env := rfl
@[simp] theorem respond_agenda (op : Byte) (st : Status) (data : Word) (s : State) :
    (respond op st data s).agenda = s.agenda := rfl
@[simp] theorem respond_replies (op : Byte) (st : Status) (data : Word) (s : State) :
    (respond op st data s).replies = s.replies := rfl
@[simp] theorem respond_draws (op : Byte) (st : Status) (data : Word) (s : State) :
    (respond op st data s).draws = s.draws := rfl
@[simp] theorem respond_wired (op : Byte) (st : Status) (data : Word) (s : State) :
    (respond op st data s).wired = s.wired := rfl
@[simp] theorem respond_mem (op : Byte) (st : Status) (data : Word) (s : State) :
    (respond op st data s).mem = s.mem := rfl

/-! ### raise -/

@[simp] theorem raise_cfg (op : Byte) (st : Status) (s : State) :
    (raise op st s).cfg = s.cfg := rfl
@[simp] theorem raise_seq (op : Byte) (st : Status) (s : State) :
    (raise op st s).seq = none := rfl
@[simp] theorem raise_count (op : Byte) (st : Status) (s : State) :
    (raise op st s).count = s.count := rfl
@[simp] theorem raise_tick (op : Byte) (st : Status) (s : State) :
    (raise op st s).tick = s.tick := rfl
@[simp] theorem raise_tStart (op : Byte) (st : Status) (s : State) :
    (raise op st s).tStart = s.tStart := rfl
@[simp] theorem raise_tModel (op : Byte) (st : Status) (s : State) :
    (raise op st s).tModel = s.tModel := rfl
@[simp] theorem raise_mode (op : Byte) (st : Status) (s : State) :
    (raise op st s).mode = s.mode := rfl
@[simp] theorem raise_duty0 (op : Byte) (st : Status) (s : State) :
    (raise op st s).duty0 = s.duty0 := rfl
@[simp] theorem raise_duty1 (op : Byte) (st : Status) (s : State) :
    (raise op st s).duty1 = s.duty1 := rfl
@[simp] theorem raise_cmds (op : Byte) (st : Status) (s : State) :
    (raise op st s).cmds = s.cmds := rfl
@[simp] theorem raise_rsps (op : Byte) (st : Status) (s : State) :
    (raise op st s).rsps = s.rsps ++ [responseWord op st 0#32] := rfl
@[simp] theorem raise_busHist (op : Byte) (st : Status) (s : State) :
    (raise op st s).busHist = s.busHist := rfl
@[simp] theorem raise_dutyHist (op : Byte) (st : Status) (s : State) :
    (raise op st s).dutyHist = s.dutyHist := rfl
@[simp] theorem raise_env (op : Byte) (st : Status) (s : State) :
    (raise op st s).env = s.env := rfl
@[simp] theorem raise_agenda (op : Byte) (st : Status) (s : State) :
    (raise op st s).agenda = s.agenda := rfl
@[simp] theorem raise_replies (op : Byte) (st : Status) (s : State) :
    (raise op st s).replies = s.replies := rfl
@[simp] theorem raise_draws (op : Byte) (st : Status) (s : State) :
    (raise op st s).draws = s.draws := rfl
@[simp] theorem raise_wired (op : Byte) (st : Status) (s : State) :
    (raise op st s).wired = s.wired := rfl
@[simp] theorem raise_mem (op : Byte) (st : Status) (s : State) :
    (raise op st s).mem = s.mem := rfl

/-! ### enter -/

@[simp] theorem enter_cfg (i : Instr) (ph : Phase) (w : Work) (s : State) :
    (enter i ph w s).cfg = s.cfg := rfl
@[simp] theorem enter_seq (i : Instr) (ph : Phase) (w : Work) (s : State) :
    (enter i ph w s).seq = some ⟨i, ph, w⟩ := rfl
@[simp] theorem enter_count (i : Instr) (ph : Phase) (w : Work) (s : State) :
    (enter i ph w s).count = s.count := rfl
@[simp] theorem enter_tick (i : Instr) (ph : Phase) (w : Work) (s : State) :
    (enter i ph w s).tick = s.tick := rfl
@[simp] theorem enter_tStart (i : Instr) (ph : Phase) (w : Work) (s : State) :
    (enter i ph w s).tStart = s.tStart := rfl
@[simp] theorem enter_tModel (i : Instr) (ph : Phase) (w : Work) (s : State) :
    (enter i ph w s).tModel = s.tModel := rfl
@[simp] theorem enter_mode (i : Instr) (ph : Phase) (w : Work) (s : State) :
    (enter i ph w s).mode = s.mode := rfl
@[simp] theorem enter_duty0 (i : Instr) (ph : Phase) (w : Work) (s : State) :
    (enter i ph w s).duty0 = s.duty0 := rfl
@[simp] theorem enter_duty1 (i : Instr) (ph : Phase) (w : Work) (s : State) :
    (enter i ph w s).duty1 = s.duty1 := rfl
@[simp] theorem enter_cmds (i : Instr) (ph : Phase) (w : Work) (s : State) :
    (enter i ph w s).cmds = s.cmds := rfl
@[simp] theorem enter_rsps (i : Instr) (ph : Phase) (w : Work) (s : State) :
    (enter i ph w s).rsps = s.rsps := rfl
@[simp] theorem enter_busHist (i : Instr) (ph : Phase) (w : Work) (s : State) :
    (enter i ph w s).busHist = s.busHist := rfl
@[simp] theorem enter_dutyHist (i : Instr) (ph : Phase) (w : Work) (s : State) :
    (enter i ph w s).dutyHist = s.dutyHist := rfl
@[simp] theorem enter_env (i : Instr) (ph : Phase) (w : Work) (s : State) :
    (enter i ph w s).env = s.env := rfl
@[simp] theorem enter_agenda (i : Instr) (ph : Phase) (w : Work) (s : State) :
    (enter i ph w s).agenda = s.agenda := rfl
@[simp] theorem enter_replies (i : Instr) (ph : Phase) (w : Work) (s : State) :
    (enter i ph w s).replies = s.replies := rfl
@[simp] theorem enter_draws (i : Instr) (ph : Phase) (w : Work) (s : State) :
    (enter i ph w s).draws = s.draws := rfl
@[simp] theorem enter_wired (i : Instr) (ph : Phase) (w : Work) (s : State) :
    (enter i ph w s).wired = s.wired := rfl
@[simp] theorem enter_mem (i : Instr) (ph : Phase) (w : Work) (s : State) :
    (enter i ph w s).mem = s.mem := rfl

/-! ### tickAdvance -/

@[simp] theorem tickAdvance_cfg (s : State) :
    (tickAdvance s).cfg = s.cfg := rfl
@[simp] theorem tickAdvance_seq (s : State) :
    (tickAdvance s).seq = s.seq := rfl
@[simp] theorem tickAdvance_count (s : State) :
    (tickAdvance s).count = s.count := rfl
@[simp] theorem tickAdvance_tick (s : State) :
    (tickAdvance s).tick = s.tick + 1#32 := rfl
@[simp] theorem tickAdvance_tStart (s : State) :
    (tickAdvance s).tStart = s.tStart := rfl
@[simp] theorem tickAdvance_tModel (s : State) :
    (tickAdvance s).tModel = s.tModel := rfl
@[simp] theorem tickAdvance_mode (s : State) :
    (tickAdvance s).mode = s.mode := rfl
@[simp] theorem tickAdvance_duty0 (s : State) :
    (tickAdvance s).duty0 = s.duty0 := rfl
@[simp] theorem tickAdvance_duty1 (s : State) :
    (tickAdvance s).duty1 = s.duty1 := rfl
@[simp] theorem tickAdvance_cmds (s : State) :
    (tickAdvance s).cmds = s.cmds := rfl
@[simp] theorem tickAdvance_rsps (s : State) :
    (tickAdvance s).rsps = s.rsps := rfl
@[simp] theorem tickAdvance_busHist (s : State) :
    (tickAdvance s).busHist = s.busHist := rfl
@[simp] theorem tickAdvance_dutyHist (s : State) :
    (tickAdvance s).dutyHist = s.dutyHist := rfl
@[simp] theorem tickAdvance_env (s : State) :
    (tickAdvance s).env = s.env := rfl
@[simp] theorem tickAdvance_agenda (s : State) :
    (tickAdvance s).agenda = s.agenda := rfl
@[simp] theorem tickAdvance_replies (s : State) :
    (tickAdvance s).replies = s.replies := rfl
@[simp] theorem tickAdvance_draws (s : State) :
    (tickAdvance s).draws = s.draws := rfl
@[simp] theorem tickAdvance_wired (s : State) :
    (tickAdvance s).wired = s.wired := rfl
@[simp] theorem tickAdvance_mem (s : State) :
    (tickAdvance s).mem = s.mem := rfl

/-! ### setDuty_ch0 -/

@[simp] theorem setDuty_ch0_cfg (v : Byte) (s : State) :
    (setDuty .ch0 v s).cfg = s.cfg := rfl
@[simp] theorem setDuty_ch0_seq (v : Byte) (s : State) :
    (setDuty .ch0 v s).seq = s.seq := rfl
@[simp] theorem setDuty_ch0_count (v : Byte) (s : State) :
    (setDuty .ch0 v s).count = s.count := rfl
@[simp] theorem setDuty_ch0_tick (v : Byte) (s : State) :
    (setDuty .ch0 v s).tick = s.tick := rfl
@[simp] theorem setDuty_ch0_tStart (v : Byte) (s : State) :
    (setDuty .ch0 v s).tStart = s.tStart := rfl
@[simp] theorem setDuty_ch0_tModel (v : Byte) (s : State) :
    (setDuty .ch0 v s).tModel = s.tModel := rfl
@[simp] theorem setDuty_ch0_mode (v : Byte) (s : State) :
    (setDuty .ch0 v s).mode = s.mode := rfl
@[simp] theorem setDuty_ch0_duty0 (v : Byte) (s : State) :
    (setDuty .ch0 v s).duty0 = v := rfl
@[simp] theorem setDuty_ch0_duty1 (v : Byte) (s : State) :
    (setDuty .ch0 v s).duty1 = s.duty1 := rfl
@[simp] theorem setDuty_ch0_cmds (v : Byte) (s : State) :
    (setDuty .ch0 v s).cmds = s.cmds := rfl
@[simp] theorem setDuty_ch0_rsps (v : Byte) (s : State) :
    (setDuty .ch0 v s).rsps = s.rsps := rfl
@[simp] theorem setDuty_ch0_busHist (v : Byte) (s : State) :
    (setDuty .ch0 v s).busHist = s.busHist := rfl
@[simp] theorem setDuty_ch0_dutyHist (v : Byte) (s : State) :
    (setDuty .ch0 v s).dutyHist = s.dutyHist ++ [⟨.ch0, v⟩] := rfl
@[simp] theorem setDuty_ch0_env (v : Byte) (s : State) :
    (setDuty .ch0 v s).env = s.env := rfl
@[simp] theorem setDuty_ch0_agenda (v : Byte) (s : State) :
    (setDuty .ch0 v s).agenda = s.agenda := rfl
@[simp] theorem setDuty_ch0_replies (v : Byte) (s : State) :
    (setDuty .ch0 v s).replies = s.replies := rfl
@[simp] theorem setDuty_ch0_draws (v : Byte) (s : State) :
    (setDuty .ch0 v s).draws = s.draws := rfl
@[simp] theorem setDuty_ch0_wired (v : Byte) (s : State) :
    (setDuty .ch0 v s).wired = s.wired := rfl
@[simp] theorem setDuty_ch0_mem (v : Byte) (s : State) :
    (setDuty .ch0 v s).mem = s.mem := rfl

/-! ### setDuty_ch1 -/

@[simp] theorem setDuty_ch1_cfg (v : Byte) (s : State) :
    (setDuty .ch1 v s).cfg = s.cfg := rfl
@[simp] theorem setDuty_ch1_seq (v : Byte) (s : State) :
    (setDuty .ch1 v s).seq = s.seq := rfl
@[simp] theorem setDuty_ch1_count (v : Byte) (s : State) :
    (setDuty .ch1 v s).count = s.count := rfl
@[simp] theorem setDuty_ch1_tick (v : Byte) (s : State) :
    (setDuty .ch1 v s).tick = s.tick := rfl
@[simp] theorem setDuty_ch1_tStart (v : Byte) (s : State) :
    (setDuty .ch1 v s).tStart = s.tStart := rfl
@[simp] theorem setDuty_ch1_tModel (v : Byte) (s : State) :
    (setDuty .ch1 v s).tModel = s.tModel := rfl
@[simp] theorem setDuty_ch1_mode (v : Byte) (s : State) :
    (setDuty .ch1 v s).mode = s.mode := rfl
@[simp] theorem setDuty_ch1_duty0 (v : Byte) (s : State) :
    (setDuty .ch1 v s).duty0 = s.duty0 := rfl
@[simp] theorem setDuty_ch1_duty1 (v : Byte) (s : State) :
    (setDuty .ch1 v s).duty1 = v := rfl
@[simp] theorem setDuty_ch1_cmds (v : Byte) (s : State) :
    (setDuty .ch1 v s).cmds = s.cmds := rfl
@[simp] theorem setDuty_ch1_rsps (v : Byte) (s : State) :
    (setDuty .ch1 v s).rsps = s.rsps := rfl
@[simp] theorem setDuty_ch1_busHist (v : Byte) (s : State) :
    (setDuty .ch1 v s).busHist = s.busHist := rfl
@[simp] theorem setDuty_ch1_dutyHist (v : Byte) (s : State) :
    (setDuty .ch1 v s).dutyHist = s.dutyHist ++ [⟨.ch1, v⟩] := rfl
@[simp] theorem setDuty_ch1_env (v : Byte) (s : State) :
    (setDuty .ch1 v s).env = s.env := rfl
@[simp] theorem setDuty_ch1_agenda (v : Byte) (s : State) :
    (setDuty .ch1 v s).agenda = s.agenda := rfl
@[simp] theorem setDuty_ch1_replies (v : Byte) (s : State) :
    (setDuty .ch1 v s).replies = s.replies := rfl
@[simp] theorem setDuty_ch1_draws (v : Byte) (s : State) :
    (setDuty .ch1 v s).draws = s.draws := rfl
@[simp] theorem setDuty_ch1_wired (v : Byte) (s : State) :
    (setDuty .ch1 v s).wired = s.wired := rfl
@[simp] theorem setDuty_ch1_mem (v : Byte) (s : State) :
    (setDuty .ch1 v s).mem = s.mem := rfl

/-! ### brake -/

@[simp] theorem brake_cfg (s : State) :
    (brake s).cfg = s.cfg := rfl
@[simp] theorem brake_seq (s : State) :
    (brake s).seq = s.seq := rfl
@[simp] theorem brake_count (s : State) :
    (brake s).count = s.count := rfl
@[simp] theorem brake_tick (s : State) :
    (brake s).tick = s.tick := rfl
@[simp] theorem brake_tStart (s : State) :
    (brake s).tStart = s.tStart := rfl
@[simp] theorem brake_tModel (s : State) :
    (brake s).tModel = s.tModel := rfl
@[simp] theorem brake_mode (s : State) :
    (brake s).mode = s.mode := rfl
@[simp] theorem brake_duty0 (s : State) :
    (brake s).duty0 = 255#8 := rfl
@[simp] theorem brake_duty1 (s : State) :
    (brake s).duty1 = 255#8 := rfl
@[simp] theorem brake_cmds (s : State) :
    (brake s).cmds = s.cmds := rfl
@[simp] theorem brake_rsps (s : State) :
    (brake s).rsps = s.rsps := rfl
@[simp] theorem brake_busHist (s : State) :
    (brake s).busHist = s.busHist := rfl
@[simp] theorem brake_dutyHist (s : State) :
    (brake s).dutyHist = s.dutyHist ++ [⟨.ch0, 255#8⟩] ++ [⟨.ch1, 255#8⟩] := rfl
@[simp] theorem brake_env (s : State) :
    (brake s).env = s.env := rfl
@[simp] theorem brake_agenda (s : State) :
    (brake s).agenda = s.agenda := rfl
@[simp] theorem brake_replies (s : State) :
    (brake s).replies = s.replies := rfl
@[simp] theorem brake_draws (s : State) :
    (brake s).draws = s.draws := rfl
@[simp] theorem brake_wired (s : State) :
    (brake s).wired = s.wired := rfl
@[simp] theorem brake_mem (s : State) :
    (brake s).mem = s.mem := rfl

end Sys2Proof.Machine
end

