-- ==== Sys2Proof/Laws/Ops.lean ====
section
/-! SUPPORT. For each shared operation, what it does, said once: the memory laws, the bus transaction, the drive pattern,
the edge handler, and the two shapes of a meaning. -/

namespace Sys2Proof.Machine

/-! ### The slave cells -/

/-- A cell just written reads as the byte written. -/
theorem Memory.read_write_same (m : Memory) (a : Nat) (v : Byte) : Memory.read (Memory.write m a v) a = some v := by
  induction m with
  | nil => simp [Memory.write, Memory.read]
  | cons c m ih =>
    obtain ⟨b, w⟩ := c
    simp only [Memory.write]
    split
    · simp [Memory.read]
    · split
      · simp [Memory.read]
      · simp [Memory.read, *]

/-- A write leaves every other cell alone. -/
theorem Memory.read_write_other (m : Memory) {a a' : Nat} (v : Byte) (h : a' ≠ a) :
    Memory.read (Memory.write m a v) a' = Memory.read m a' := by
  induction m with
  | nil => simp [Memory.write, Memory.read, h]
  | cons c m ih =>
    obtain ⟨b, w⟩ := c
    simp only [Memory.write]
    split
    · simp [Memory.read, h]
    · split
      · rename_i _ hab
        subst hab
        simp [Memory.read, h]
      · simp [Memory.read, ih]

/-- The canonical form says that the addresses rise strictly. -/
theorem Memory.wf_iff (m : Memory) : m.wf = true ↔ m.Pairwise (fun c d => c.1 < d.1) := by
  induction m with
  | nil => simp [Memory.wf]
  | cons c m ih =>
    cases m with
    | nil => simp [Memory.wf]
    | cons d m =>
      obtain ⟨a, v⟩ := c
      obtain ⟨b, w⟩ := d
      simp only [Memory.wf, Bool.and_eq_true, decide_eq_true_eq, ih, List.pairwise_cons, List.mem_cons,
        forall_eq_or_imp]
      constructor
      · rintro ⟨hab, hb, hm⟩
        exact ⟨⟨hab, fun x hx => Nat.lt_trans hab (hb x hx)⟩, hb, hm⟩
      · rintro ⟨⟨hab, -⟩, hb, hm⟩
        exact ⟨hab, hb, hm⟩

/-- The cells of a written memory are the cell written and cells that were there. -/
theorem Memory.mem_write {m : Memory} {a : Nat} {v : Byte} {c : Host.Cell} (h : c ∈ Memory.write m a v) :
    c = (a, v) ∨ c ∈ m := by
  induction m with
  | nil => exact .inl (by simpa [Memory.write] using h)
  | cons d m ih =>
    obtain ⟨b, w⟩ := d
    simp only [Memory.write] at h
    split at h
    · simpa using h
    · split at h
      · rcases List.mem_cons.mp h with h | h
        · exact .inl h
        · exact .inr (List.mem_cons_of_mem _ h)
      · rcases List.mem_cons.mp h with h | h
        · exact .inr (h ▸ List.mem_cons_self)
        · exact (ih h).imp_right (List.mem_cons_of_mem _)

/-- A write keeps the canonical form. -/
theorem Memory.wf_write {m : Memory} (a : Nat) (v : Byte) (h : m.wf = true) : (Memory.write m a v).wf = true := by
  rw [Memory.wf_iff] at h ⊢
  induction m with
  | nil => simp [Memory.write]
  | cons d m ih =>
    obtain ⟨b, w⟩ := d
    obtain ⟨hb, hm⟩ := List.pairwise_cons.mp h
    simp only [Memory.write]
    split
    · rename_i hab
      refine List.pairwise_cons.mpr ⟨fun c hc => ?_, h⟩
      rcases List.mem_cons.mp hc with rfl | hc
      · exact hab
      · exact Nat.lt_trans hab (hb c hc)
    · split
      · rename_i _ hab
        subst hab
        exact List.pairwise_cons.mpr ⟨hb, hm⟩
      · rename_i h1 h2
        refine List.pairwise_cons.mpr ⟨fun c hc => ?_, ih hm⟩
        rcases Memory.mem_write hc with rfl | hc
        · show b < a
          omega
        · exact hb c hc

/-- The one field a byte reaching a slave can change. -/
theorem slaveStore_eq (k : Key) (reg v : Byte) (s : State) :
    slaveStore k reg v s =
      { s with mem := if answersAt s k then Memory.write s.mem (cellAddr k reg) v else s.mem } := by
  unfold slaveStore
  split <;> rfl

/-- Whether a slave answers depends on the environment's kind and its wiring only. -/
theorem answersAt_iff (s : State) (k : Key) : answersAt s k = true ↔ s.env = .bench ∧ k ∈ s.wired := by
  simp [answersAt]

/-! ### Bus transactions -/

/-- Every transaction is answered. -/
theorem answeredBy_busAnswer (k : Key) (reg : Byte) (s : State) :
    AnsweredBy s k reg (busAnswer k reg s).1 (busAnswer k reg s).2.replies (busAnswer k reg s).2.draws := by
  unfold busAnswer AnsweredBy
  cases h : s.replies with
  | cons r rest => exact .inl ⟨rfl, rfl⟩
  | nil =>
    cases h' : s.env with
    | bench => exact .inr (.inl ⟨rfl, h, rfl, rfl, by simp⟩)
    | real => exact .inr (.inr ⟨rfl, rfl, rfl, rfl, rfl⟩)

/-- A transaction's answer is the one the state names, and drawing it changes the inputs only. -/
theorem busAnswer_eq {s : State} {k : Key} {reg : Byte} {r : BusReply} {rest : List BusReply} {d : Nat}
    (h : AnsweredBy s k reg r rest d) : busAnswer k reg s = (r, { s with replies := rest, draws := d }) := by
  obtain ⟨h1, rfl⟩ | ⟨h1, rfl, h2, rfl, rfl⟩ | ⟨h1, rfl, h2, rfl, rfl⟩ := h
  · simp [busAnswer, h1]
  · cases s
    simp_all [busAnswer]
  · cases s
    simp_all [busAnswer]

/-- A write transaction, by its answer (40_bus_master.md R71). -/
theorem memWrite_eq {s : State} {k : Key} {reg : Byte} {r : BusReply} {rest : List BusReply} {d : Nat} (v : Byte)
    (h : AnsweredBy s k reg r rest d) :
    memWrite k reg v s =
      ((failureOf r).isNone,
       { s with replies := rest, draws := d, busHist := s.busHist ++ [.write k reg v (failureOf r)],
                mem := cellsAfter s k reg v r }) := by
  have hi : ∀ s' : State, s'.env = s.env → s'.wired = s.wired → (answersAt s' k = true ↔ s.env = .bench ∧ k ∈ s.wired) :=
    fun s' h1 h2 => by rw [answersAt_iff, h1, h2]
  unfold memWrite
  rw [busAnswer_eq h]
  cases r with
  | done b => simp [slaveStore_eq, failureOf, cellsAfter, landed, hi]
  | fail c l => cases l <;> simp [slaveStore_eq, failureOf, cellsAfter, landed, hi]

/-- A read transaction, by its answer (40_bus_master.md R72). -/
theorem memRead_eq {s : State} {k : Key} {reg : Byte} {r : BusReply} {rest : List BusReply} {d : Nat}
    (h : AnsweredBy s k reg r rest d) :
    memRead k reg s =
      (((failureOf r).isNone, byteOf r),
       { s with replies := rest, draws := d, busHist := s.busHist ++ [.read k reg (byteOf r) (failureOf r)] }) := by
  unfold memRead
  rw [busAnswer_eq h]
  cases r <;> simp [failureOf, byteOf]

/-! ### Duties and edges -/

/-! ### Ports -/

/-- What legal parameters are (00_scope.md R6, 10_state.md R18). -/
theorem params_legal_iff (p : Params) :
    p.legal = true ↔ 1 ≤ p.nbus ∧ p.nbus ≤ 4 ∧ ∀ k ∈ p.devTab, k.bus.toNat < p.nbus := by
  simp only [Params.legal, Bool.and_eq_true, decide_eq_true_eq, List.all_eq_true, Vector.mem_toList_iff, and_assoc]

/-- The lookup gives a key of a port that exists (10_state.md R18, 41_register_codec.md R80). -/
theorem lookup_bus {p : Params} {dev reg : Byte} {k : Key} (hp : p.legal = true) (h : lookup p dev reg = .ok k) :
    k.bus.toNat < p.nbus := by
  unfold lookup at h
  split at h
  · simp at h
  · split at h
    · simp at h
    · rename_i k' hk
      split at h
      · obtain rfl : k' = k := by simpa using h
        exact ((params_legal_iff p).1 hp).2.2 _ (Vector.mem_of_getElem? hk)
      · simp at h

/-- The parameters after reset are legal (00_scope.md R6, 10_state.md R18). -/
theorem reset_legal : State.reset.cfg.legal = true := by
  have h4 : Config.nbus ≤ 4 := Config.furtherPorts.isLt
  refine (params_legal_iff _).2 ⟨Nat.le_add_left 1 _, h4, fun k hk => ?_⟩
  obtain ⟨k', -, rfl⟩ := Vector.mem_map.1 (show k ∈ Config.wiring.map Config.onPort from hk)
  have hlt : k'.bus.toNat % Config.nbus < Config.nbus := Nat.mod_lt _ (Nat.succ_pos _)
  show (BitVec.ofNat 8 (k'.bus.toNat % Config.nbus)).toNat < Config.nbus
  rw [BitVec.toNat_ofNat, Nat.mod_eq_of_lt (by omega)]
  exact hlt

/-- The drive pattern, by the direction (43_rotation_controller.md R117). -/
theorem drive_eq (cw speed : Byte) (s : State) :
    drive cw speed s =
      { s with duty0 := if cw = 1#8 then speed else 0#8, duty1 := if cw = 1#8 then 0#8 else speed,
               dutyHist := s.dutyHist ++ (if cw = 1#8 then [⟨.ch0, speed⟩, ⟨.ch1, 0#8⟩]
                                          else [⟨.ch0, 0#8⟩, ⟨.ch1, speed⟩]) } := by
  unfold drive
  split <;> simp [setDuty]

/-- The braking pattern (43_rotation_controller.md R118). -/
theorem brake_eq (s : State) :
    brake s = { s with duty0 := 255#8, duty1 := 255#8,
                       dutyHist := s.dutyHist ++ [⟨.ch0, 255#8⟩, ⟨.ch1, 255#8⟩] } := by
  simp [brake, setDuty, Config.dutyMax]

/-- `REACHED` compares unsigned numbers (43_rotation_controller.md R115). -/
theorem reached_iff (tgt dlt : Word) : reached tgt dlt = true ↔ tgt.toNat ≤ dlt.toNat := by
  simp [reached, BitVec.le_def]

/-- `TIMEOUT` compares the modular difference with 1000 (43_rotation_controller.md R116). -/
theorem timedOut_iff (t0 now : Word) : timedOut t0 now = true ↔ 1000 ≤ (now - t0).toNat := by
  simp only [timedOut, Config.rotTimeoutMs, decide_eq_true_eq, BitVec.le_def]
  rfl

/-- The edge handler in one record (42_encoder_tracker.md R90 to R92). -/
theorem edge_eq (b : Bool) (s : State) :
    edge b s =
      { s with count := countAfter s.cfg b s.count,
               tModel := if atRevolution (countAfter s.cfg b s.count) = true ∧ s.mode = modeModel
                         then s.tick - s.tStart else s.tModel,
               mode := if atRevolution (countAfter s.cfg b s.count) = true ∧ s.mode = modeModel
                       then modeModeled else s.mode } := by
  unfold edge revolutionTick
  by_cases h1 : atRevolution (countAfter s.cfg b s.count) = true <;> by_cases h2 : s.mode = modeModel <;> simp [h1, h2]

/-! ### The shapes of a meaning -/

/-- A response with status `OK` (30_encoding.md R53). -/
theorem respond_ok (op : Byte) (data : Word) (s : State) :
    respond op .ok data s = { s with seq := none, rsps := s.rsps ++ [rspOf op 0x00#8 data] } := rfl

/-- A response with any other status carries data 0 (30_encoding.md R53). -/
theorem respond_notOk {st : Status} (h : st ≠ .ok) (op : Byte) (data : Word) (s : State) :
    respond op st data s = { s with seq := none, rsps := s.rsps ++ [rspOf op st.code 0#32] } := by
  simp [respond, responseWord, rspOf, h]

/-- A refusal changes nothing but the responses (60_exceptions.md R160). -/
theorem raise_idle {s : State} (hq : s.seq = none) {st : Status} (h : st ≠ .ok) (op : Byte) :
    raise op st s = { s with rsps := s.rsps ++ [rspOf op st.code 0#32] } := by
  rw [raise, respond_notOk h, ← hq]

/-- The response at the end of a bus operation (40_bus_master.md R71, R72): `OK` with the data, or `BUS_FAIL` with 0. -/
theorem respond_bus (op : Byte) (ok : Bool) (data : Word) (s : State) :
    respond op (busStatus ok) data s =
      { s with seq := none, rsps := s.rsps ++ [if ok then rspOf op 0x00#8 data else rspOf op 0x01#8 0#32] } := by
  cases ok <;> rfl

/-- What an operation of one step can do. -/
theorem oneStep_next {i : Instr} {f : State → State} {s t : State} (h : oneStep i f s = .next t) :
    s.seq = none ∧ t = accept i f s := by
  unfold oneStep at h
  split at h
  · exact ⟨‹_›, by simpa using h.symm⟩
  · cases h

/-- What an operation with phases can do: be accepted, or advance by a phase. -/
theorem phased_next {i : Instr} {start : State → State} {run : Phase → Work → State → Host.Outcome State Fault Refusal}
    {s t : State} (h : phased i start run s = .next t) :
    (s.seq = none ∧ t = start s) ∨ ∃ p, s.seq = some p ∧ p.op = i ∧ run p.ph p.work s = .next t := by
  unfold phased at h
  split at h
  · exact .inl ⟨‹_›, by simpa using h.symm⟩
  · split at h
    · exact .inr ⟨_, ‹_›, ‹_›, h⟩
    · cases h

/-- Acceptance either refuses the operands or goes on. -/
theorem accept_cases (i : Instr) (f : State → State) (s : State) :
    (i.WellFormed s.cfg = true ∧ accept i f s = f s) ∨
    (i.WellFormed s.cfg = false ∧ accept i f s = raise i.opcode .illegalOperand s) := by
  unfold accept
  cases h : i.WellFormed s.cfg <;> simp

/-- Acceptance of a codec operation either refuses it with a status or latches its key (41_register_codec.md R80). -/
theorem acceptCodec_cases (i : Instr) (dev reg : Byte) (s : State) :
    (∃ st, st ≠ .ok ∧ acceptCodec i dev reg s = raise i.opcode st s) ∨
    (∃ k, i.WellFormed s.cfg = true ∧ lookup s.cfg dev reg = .ok k ∧
      acceptCodec i dev reg s = enter i .rd { Work.fresh with key := k } s) := by
  unfold acceptCodec
  rcases accept_cases i _ s with ⟨h, he⟩ | ⟨h, he⟩
  · rw [he]
    cases hl : lookup s.cfg dev reg with
    | ok k => exact .inr ⟨k, h, rfl, rfl⟩
    | error st =>
      refine .inl ⟨st, ?_, rfl⟩
      rintro rfl
      unfold lookup at hl
      repeat' split at hl
      all_goals simp at hl
  · exact .inl ⟨.illegalOperand, by decide, he⟩

end Sys2Proof.Machine
end

