-- ==== Sys2Proof/Laws/PerInstr.lean ====
section
/-! SUPPORT. The family OpcodeByte: bits 63:56 of an operation's word are its opcode byte (30_encoding.md R50). -/

namespace Sys2Proof.Laws.OpcodeByte

/-- `CMD[63:56]` is the opcode. -/
def Statement (i : Instr) : Prop := (encode i).extractLsb' 56 8 = i.opcode

/-- The field from the word as a number: it is enough that the fields below bit 56 do not reach it. -/
theorem of_toNat {i : Instr} {low : Nat} (h : (encode i).toNat = i.opcode.toNat * 2 ^ 56 + low)
    (hl : low < 2 ^ 56) : Statement i := by
  unfold Statement
  rw [← BitVec.toNat_inj, toNat_field, h]
  have := i.opcode.isLt
  omega

theorem bwr (bus addr reg data : Byte) : Statement (.bwr bus addr reg data) :=
  of_toNat (low := bus.toNat * 2 ^ 48 + addr.toNat * 2 ^ 40 + reg.toNat * 2 ^ 32 + data.toNat * 2 ^ 24)
    (by rw [encode_bwr_toNat]; simp only [Instr.opcode, Instr.op, Opcode.byte, BitVec.toNat_ofNat]; omega) (by omega)

theorem brd (bus addr reg : Byte) : Statement (.brd bus addr reg) :=
  of_toNat (low := bus.toNat * 2 ^ 48 + addr.toNat * 2 ^ 40 + reg.toNat * 2 ^ 32)
    (by rw [encode_brd_toNat]; simp only [Instr.opcode, Instr.op, Opcode.byte, BitVec.toNat_ofNat]; omega) (by omega)

theorem rdreg (dev reg : Byte) : Statement (.rdreg dev reg) :=
  of_toNat (low := dev.toNat * 2 ^ 48 + reg.toNat * 2 ^ 40)
    (by rw [encode_rdreg_toNat]; simp only [Instr.opcode, Instr.op, Opcode.byte, BitVec.toNat_ofNat]; omega) (by omega)

theorem wrfld (dev reg mask bits shift : Byte) : Statement (.wrfld dev reg mask bits shift) :=
  of_toNat (low := dev.toNat * 2 ^ 48 + reg.toNat * 2 ^ 40 + mask.toNat * 2 ^ 32 + bits.toNat * 2 ^ 24 + shift.toNat * 2 ^ 16)
    (by rw [encode_wrfld_toNat]; simp only [Instr.opcode, Instr.op, Opcode.byte, BitVec.toNat_ofNat]; omega) (by omega)

theorem encrd : Statement .encrd := by unfold Statement; decide

theorem encclr : Statement .encclr := by unfold Statement; decide

theorem tmark : Statement .tmark := by unfold Statement; decide

theorem tmrd : Statement .tmrd := by unfold Statement; decide

theorem moderd : Statement .moderd := by unfold Statement; decide

theorem modewr (mode : Byte) : Statement (.modewr mode) :=
  of_toNat (low := mode.toNat * 2 ^ 48)
    (by rw [encode_modewr_toNat]; simp only [Instr.opcode, Instr.op, Opcode.byte, BitVec.toNat_ofNat]) (by omega)

theorem rot (cw speed : Byte) (angle : Word) : Statement (.rot cw speed angle) :=
  of_toNat (low := cw.toNat * 2 ^ 48 + speed.toNat * 2 ^ 40 + angle.toNat * 2 ^ 0)
    (by rw [encode_rot_toNat]; simp only [Instr.opcode, Instr.op, Opcode.byte, BitVec.toNat_ofNat]; omega) (by omega)

theorem pwmwr (ch duty : Byte) : Statement (.pwmwr ch duty) :=
  of_toNat (low := ch.toNat * 2 ^ 48 + duty.toNat * 2 ^ 40)
    (by rw [encode_pwmwr_toNat]; simp only [Instr.opcode, Instr.op, Opcode.byte, BitVec.toNat_ofNat]; omega) (by omega)

end Sys2Proof.Laws.OpcodeByte
end

