-- ==== Sys2Proof/Laws/Step.lean ====
section
/-! SUPPORT. What a step can do, said once: whose turn it is, and what the block's own move does to the state. -/

namespace Sys2Proof.Machine

/-- Choosing the turn changes the agenda and the draw counter only. -/
theorem nextTurn_state (s : State) : ∃ ag d, (nextTurn s).2 = { s with agenda := ag, draws := d } := by
  unfold nextTurn
  split
  · exact ⟨_, s.draws, rfl⟩
  · split
    · exact ⟨s.agenda, s.draws, rfl⟩
    · exact ⟨s.agenda, _, rfl⟩

/-- The turn is the agenda's first when there is one. -/
theorem nextTurn_cons {s : State} {u : Turn} {rest : List Turn} (h : s.agenda = u :: rest) :
    nextTurn s = (u, { s with agenda := rest }) := by
  simp [nextTurn, h]

/-- On the test bench the block moves when no turn is fixed. -/
theorem nextTurn_bench {s : State} (h : s.agenda = []) (he : s.env = .bench) : nextTurn s = (.block, s) := by
  simp [nextTurn, h, he]

/-- A fixed block turn is the block's move. -/
theorem step_block {s : State} {rest : List Turn} (h : s.agenda = .block :: rest) :
    step s = blockMove { s with agenda := rest } := by
  simp [step, nextTurn_cons h, takeTurn]

/-- On the test bench with no turn fixed the step is the block's move. -/
theorem step_bench {s : State} (h : s.agenda = []) (he : s.env = .bench) : step s = blockMove s := by
  simp [step, nextTurn_bench h he, takeTurn]

/-- The operation in progress moves. -/
theorem blockMove_busy {s : State} {p : InProgress} (h : s.seq = some p) : blockMove s = exec p.op s := by
  simp [blockMove, h]

/-- The host presents its next word. -/
theorem blockMove_idle {s : State} {w : CmdWord} {ws : List CmdWord} (h : s.seq = none) (hc : s.cmds = w :: ws) :
    blockMove s = present w { s with cmds := ws } := by
  simp [blockMove, h, hc]

/-- What a step can do, by the agent that takes it. -/
theorem step_cases {s t : State} (h : step s = .next t) :
    ∃ ag d, let s' : State := { s with agenda := ag, draws := d }
      (∃ b, (nextTurn s).1 = .edge b ∧ t = edge b s') ∨
      ((nextTurn s).1 = .tick ∧ t = tickAdvance s') ∨
      (∃ k reg v, (nextTurn s).1 = .slave k reg v ∧ t = slaveStore k reg v s') ∨
      ((nextTurn s).1 = .block ∧
        ((∃ p, s.seq = some p ∧ exec p.op s' = .next t) ∨
         (s.seq = none ∧ s.cmds = [] ∧ t = s') ∨
         (∃ w ws, s.seq = none ∧ s.cmds = w :: ws ∧ present w { s' with cmds := ws } = .next t))) := by
  obtain ⟨ag, d, hs⟩ := nextTurn_state s
  refine ⟨ag, d, ?_⟩
  unfold step at h
  rw [hs] at h
  cases ht : (nextTurn s).1 with
  | edge b => exact .inl ⟨b, rfl, by simpa [ht, takeTurn] using h.symm⟩
  | tick => exact .inr (.inl ⟨rfl, by simpa [ht, takeTurn] using h.symm⟩)
  | slave k reg v => exact .inr (.inr (.inl ⟨k, reg, v, rfl, by simpa [ht, takeTurn] using h.symm⟩))
  | block =>
    refine .inr (.inr (.inr ⟨rfl, ?_⟩))
    simp only [ht, takeTurn, blockMove] at h
    cases hq : s.seq with
    | some p => exact .inl ⟨p, rfl, by simpa [hq] using h⟩
    | none =>
      simp only [hq] at h
      cases hc : s.cmds with
      | nil => exact .inr (.inl ⟨rfl, rfl, by simpa [hc] using h.symm⟩)
      | cons w ws => exact .inr (.inr ⟨w, ws, rfl, rfl, by simpa [hc] using h⟩)

/-- What an operation does in the step that accepts it, its checks having passed. -/
def Accepted (i : Instr) (s t : State) : Prop :=
  match i with
  | .bwr bus addr _ _      => t = enter i .bus { Work.fresh with key := rawKey bus addr } s
  | .brd bus addr _        => t = enter i .bus { Work.fresh with key := rawKey bus addr } s
  | .rdreg dev reg         => ∃ k, lookup s.cfg dev reg = .ok k ∧ t = enter i .rd { Work.fresh with key := k } s
  | .wrfld dev reg _ _ _   => ∃ k, lookup s.cfg dev reg = .ok k ∧ t = enter i .rd { Work.fresh with key := k } s
  | .encrd                 => t = respond i.opcode .ok s.count s
  | .encclr                => t = respond i.opcode .ok 0#32 { s with count := 0#32 }
  | .tmark                 => t = respond i.opcode .ok 0#32 { s with tStart := s.tick }
  | .tmrd                  => t = respond i.opcode .ok s.tModel s
  | .moderd                => t = respond i.opcode .ok (s.mode.setWidth 32) s
  | .modewr mode           => t = respond i.opcode .ok 0#32 { s with mode := modeOf mode }
  | .rot _ _ angle         => t = enter i .r0 { Work.fresh with target := target angle } s
  | .pwmwr ch duty         => t = respond i.opcode .ok 0#32 (setDuty (chanOf ch) duty s)

/-- With the sequencer idle an operation is refused with a status other than `OK`, or accepted. -/
theorem exec_idle {i : Instr} {s t : State} (hq : s.seq = none) (h : exec i s = .next t) :
    (∃ st, st ≠ .ok ∧ t = raise i.opcode st s) ∨ (i.WellFormed s.cfg = true ∧ Accepted i s t) := by
  have simple : ∀ (j : Instr) (f : State → State), t = accept j f s →
      (∃ st, st ≠ .ok ∧ t = raise j.opcode st s) ∨ (j.WellFormed s.cfg = true ∧ t = f s) := by
    rintro j f rfl
    rcases accept_cases j f s with ⟨hw, he⟩ | ⟨hw, he⟩
    · exact .inr ⟨hw, he⟩
    · exact .inl ⟨.illegalOperand, by decide, he⟩
  have codec : ∀ (j : Instr) (dev reg : Byte), t = acceptCodec j dev reg s →
      (∃ st, st ≠ .ok ∧ t = raise j.opcode st s) ∨ (j.WellFormed s.cfg = true ∧
        ∃ k, lookup s.cfg dev reg = .ok k ∧ t = enter j .rd { Work.fresh with key := k } s) := by
    rintro j dev reg rfl
    rcases acceptCodec_cases j dev reg s with h | ⟨k, hw, hl, he⟩
    · exact .inl h
    · exact .inr ⟨hw, k, hl, he⟩
  cases i with
  | bwr bus addr reg data =>
    simp only [exec, execBwr, phased, hq, Host.Outcome.next.injEq] at h
    exact simple _ _ h.symm
  | brd bus addr reg =>
    simp only [exec, execBrd, phased, hq, Host.Outcome.next.injEq] at h
    exact simple _ _ h.symm
  | rdreg dev reg =>
    simp only [exec, execRdreg, phased, hq, Host.Outcome.next.injEq] at h
    exact codec _ _ _ h.symm
  | wrfld dev reg mask bits shift =>
    simp only [exec, execWrfld, phased, hq, Host.Outcome.next.injEq] at h
    exact codec _ _ _ h.symm
  | rot cw speed angle =>
    simp only [exec, execRot, phased, hq, Host.Outcome.next.injEq] at h
    exact simple _ _ h.symm
  | encrd => exact simple .encrd _ (oneStep_next (i := .encrd) h).2
  | encclr => exact simple .encclr _ (oneStep_next (i := .encclr) h).2
  | tmark => exact simple .tmark _ (oneStep_next (i := .tmark) h).2
  | tmrd => exact simple .tmrd _ (oneStep_next (i := .tmrd) h).2
  | moderd => exact simple .moderd _ (oneStep_next (i := .moderd) h).2
  | modewr mode => exact simple (.modewr mode) _ (oneStep_next (i := .modewr mode) h).2
  | pwmwr ch duty => exact simple (.pwmwr ch duty) _ (oneStep_next (i := .pwmwr ch duty) h).2

/-- A presented word is answered with a refusal, or decodes to an operation that is accepted. -/
theorem present_cases {w : CmdWord} {s t : State} (hq : s.seq = none) (h : present w s = .next t) :
    (∃ op st, st ≠ .ok ∧ t = raise op st s) ∨
    ∃ i, decode w = .ok i ∧ i.WellFormed s.cfg = true ∧ Accepted i s t := by
  unfold present at h
  cases hd : decode w with
  | ok i =>
    simp only [hd] at h
    rcases exec_idle hq h with ⟨st, h1, h2⟩ | ⟨h1, h2⟩
    · exact .inl ⟨_, st, h1, h2⟩
    · exact .inr ⟨i, rfl, h1, h2⟩
  | error e =>
    simp only [hd, Host.Outcome.next.injEq] at h
    exact .inl ⟨_, .illegalCmd, by decide, h.symm⟩

/-- What the operation in progress does in one phase. -/
def Advanced (p : InProgress) (s t : State) : Prop :=
  match p.op, p.ph with
  | .bwr _ _ reg data, .bus               => t = bwrBus p.op reg data p.work s
  | .brd _ _ reg, .bus                    => t = readAndRespond p.op reg p.work s
  | .rdreg _ reg, .rd                     => t = readAndRespond p.op reg p.work s
  | .wrfld _ reg _ _ _, .rd               => t = wrfldRd p.op reg p.work s
  | .wrfld _ reg mask bits shift, .wr     => t = wrfldWr p.op reg mask bits shift p.work s
  | .rot _ _ _, .r0                       => t = enter p.op .r1 { p.work with start := s.count } s
  | .rot _ _ _, .r1                       => t = enter p.op .r2 { p.work with t0 := s.tick } s
  | .rot _ _ _, .r2                       => t = enter p.op .r3 { p.work with cur := s.count } s
  | .rot cw speed _, .r3                  => t = rotR3 p.op cw speed p.work s
  | _, _                                  => False

/-- The operation in progress advances by one of its own phases. -/
theorem exec_busy {p : InProgress} {s t : State} (hq : s.seq = some p) (h : exec p.op s = .next t) :
    Advanced p s t := by
  obtain ⟨i, ph, w⟩ := p
  cases i <;>
    simp only [exec, execBwr, execBrd, execRdreg, execWrfld, execRot, execEncrd, execEncclr, execTmark, execTmrd,
      execModerd, execModewr, execPwmwr, phased, oneStep, hq, if_true, reduceCtorEq] at h <;>
    cases ph <;> simp only [Host.Outcome.next.injEq, reduceCtorEq] at h <;> exact h.symm

/-- What a read transaction changes: the inputs it used up and the bus history. -/
theorem memRead_state (k : Key) (reg : Byte) (s : State) : ∃ rest d byte f,
    (memRead k reg s).2 =
      { s with replies := rest, draws := d, busHist := s.busHist ++ [.read k reg byte f] } := by
  rw [memRead_eq (answeredBy_busAnswer k reg s)]
  exact ⟨_, _, _, _, rfl⟩

/-- What a write transaction changes: the inputs it used up, the bus history, and at most one cell of a wired slave. -/
theorem memWrite_state (k : Key) (reg v : Byte) (s : State) : ∃ rest d f m,
    (memWrite k reg v s).2 =
      { s with replies := rest, draws := d, busHist := s.busHist ++ [.write k reg v f], mem := m } ∧
    (m = s.mem ∨ (k ∈ s.wired ∧ m = Memory.write s.mem (cellAddr k reg) v)) := by
  rw [memWrite_eq v (answeredBy_busAnswer k reg s)]
  refine ⟨_, _, _, _, rfl, ?_⟩
  simp only [cellsAfter]
  split
  · exact .inr ⟨(by assumption : _ ∧ _ ∧ _).2.2, rfl⟩
  · exact .inl rfl

/-- An operation in one of its own phases does advance. -/
theorem exec_advances {p : InProgress} {s : State} (hq : s.seq = some p) (hp : hasPhase p.op p.ph = true) :
    ∃ t, exec p.op s = .next t := by
  obtain ⟨i, ph, w⟩ := p
  cases i <;> cases ph <;>
    first
    | (exfalso; simp [hasPhase] at hp; done)
    | exact ⟨_, by simp only [exec, execBwr, execBrd, execRdreg, execWrfld, execRot, phased, hq, if_true]; rfl⟩

/-- With the sequencer idle every operation is answered or begun. -/
theorem exec_idle_next (i : Instr) {s : State} (hq : s.seq = none) : ∃ t, exec i s = .next t := by
  cases i <;>
    exact ⟨_, by
      simp only [exec, execBwr, execBrd, execRdreg, execWrfld, execRot, execEncrd, execEncclr, execTmark, execTmrd,
        execModerd, execModewr, execPwmwr, phased, oneStep, hq]
      rfl⟩

/-- Runs compose. -/
theorem runs_add (m n : Nat) {s t : State} (h : runs m s = .next t) : runs (m + n) s = runs n t := by
  induction m generalizing s with
  | zero =>
    obtain rfl : s = t := by simpa [runs] using h
    rw [Nat.zero_add]
  | succ m ih =>
    rw [Nat.add_right_comm]
    simp only [runs] at h ⊢
    cases hs : step s with
    | next u =>
      simp only [hs] at h ⊢
      exact ih h
    | fault f => simp [hs] at h
    | refused r => simp [hs] at h

/-- A run with nothing owed has ended. -/
theorem endOf_done {s : State} (h : owed s = 0) (n : Nat) : endOf n s = some s := by
  cases n <;> simp [endOf, h]

/-- A run with a response owed goes on by one step. -/
theorem endOf_next {s t : State} (h : owed s ≠ 0) (n : Nat) (hs : step s = .next t) : endOf (n + 1) s = endOf n t := by
  simp [endOf, h, hs]

/-- A run is the host's run of the core. -/
theorem runs_eq_core (n : Nat) (s : State) :
    runs n s = Host.Core.run ⟨State, Fault, Refusal, step, State.reset⟩ n s := by
  induction n generalizing s with
  | zero => rfl
  | succ n ih =>
    simp only [runs, Host.Core.run]
    cases step s with
    | next u => exact ih u
    | fault f => rfl
    | refused r => rfl

end Sys2Proof.Machine
end

