-- ==== Sys2Proof/Machine/HostFormulas.lean ====
section
/-! DEFINITION. The formulas of the host software that the spec transcribes (48_host_conventions.md R132 to R138), exactly,
on quotients of integers. They are outside the block: no step depends on them (log entry 30). -/

namespace Sys2Proof.Machine

/-- A physical quantity as a quotient of integers, in the unit its function names. -/
structure Quotient where
  num : Int
  den : Nat
  deriving DecidableEq, Repr

/-- The nearest integer, half away from zero. -/
def Quotient.round (q : Quotient) : Int :=
  if q.num < 0 then -((2 * -q.num + q.den) / (2 * q.den)) else (2 * q.num + q.den) / (2 * q.den)

/-- Whether the quantity lies between 0 and `top`, both included. -/
def Quotient.upTo (q : Quotient) (top : Quotient) : Bool := 0 ≤ q.num && q.num * top.den ≤ top.num * q.den

/-- The register value of a voltage: `round(volts / 0.0234)` (48_host_conventions.md R132). -/
def encodeVolts (volts : Quotient) : Int := Quotient.round ⟨volts.num * 10000, volts.den * 234⟩

/-- The voltage of a register value (48_host_conventions.md R132). -/
def decodeVolts (register : Int) : Quotient := ⟨register * 234, 10000⟩

/-- The accepted nominal voltages, 0 to 3.3 V (48_host_conventions.md R132). -/
def nominalVoltsAccepted (volts : Quotient) : Bool := volts.upTo ⟨33, 10⟩

/-- The accepted absolute voltages, 0 to 6 V (48_host_conventions.md R132). -/
def absoluteVoltsAccepted (volts : Quotient) : Bool := volts.upTo ⟨6, 1⟩

/-- The field value of a maximum current: `round((mA - 28.6) / 7.2)` (48_host_conventions.md R133). -/
def encodeMilliamps (mA : Quotient) : Int := Quotient.round ⟨10 * mA.num - 286 * mA.den, 72 * mA.den⟩

/-- The maximum current of a field value (48_host_conventions.md R133). -/
def decodeMilliamps (field : Int) : Quotient := ⟨field * 72 + 286, 10⟩

/-- The accepted maximum currents, 0 to 300 mA (48_host_conventions.md R133). -/
def milliampsAccepted (mA : Quotient) : Bool := mA.upTo ⟨300, 1⟩

/-- Whether an encoded value fits a field of `n` bits; a host should refuse one that does not
(48_host_conventions.md R134). -/
def fitsField (n : Nat) (v : Int) : Bool := 0 ≤ v && v < 2 ^ n

/-- The period of a resonant frequency: `round(1 / (Hz * 1.33332e-6))` (48_host_conventions.md R135). -/
def encodePeriod (hz : Quotient) : Int := Quotient.round ⟨hz.den * 100000000000, hz.num.toNat * 133332⟩

/-- The resonant frequency of a period (48_host_conventions.md R135). -/
def decodePeriod (period : Nat) : Quotient := ⟨100000000000, period * 133332⟩

/-- The accepted resonant frequencies, above 0 and up to 500 Hz (48_host_conventions.md R135). -/
def hertzAccepted (hz : Quotient) : Bool := 0 < hz.num && hz.upTo ⟨500, 1⟩

/-- `REG_PERIOD_H` and `REG_PERIOD_L` of a period (48_host_conventions.md R135). -/
def periodRegisters (period : Nat) : Nat × Nat := (period / 128, 128 + period % 128)

/-- The period in the two registers (48_host_conventions.md R135). -/
def periodOfRegisters (high low : Byte) : Nat := high.toNat * 128 + (low &&& 0x7F#8).toNat

/-- The maximum-current field of a byte read back: masking AND (48_host_conventions.md R136, 90_conflicts.md C8). -/
def maxCurrentField (byte : Byte) : Byte := byte &&& 0x1F#8

/-- The impedance factor, given the maximum-current field: `round(ohms * (field + 4) / 1.6104)`
(48_host_conventions.md R136). -/
def encodeOhms (ohms : Quotient) (field : Nat) : Int :=
  Quotient.round ⟨ohms.num * (field + 4) * 10000, ohms.den * 16104⟩

/-- The impedance of a factor (48_host_conventions.md R136). -/
def decodeOhms (factor : Int) (field : Nat) : Quotient := ⟨factor * 16104, 10000 * (field + 4)⟩

/-- The accepted impedances, 0 to 50 ohms (48_host_conventions.md R136). -/
def ohmsAccepted (ohms : Quotient) : Bool := ohms.upTo ⟨50, 1⟩

/-- `REG_V2I_H` and `REG_V2I_L` of a factor (48_host_conventions.md R136). -/
def factorRegisters (factor : Nat) : Nat × Nat := (factor / 256, factor % 256)

/-- The BEMF threshold of a readback, in tenths of a millivolt; any other value is 0 (48_host_conventions.md R137). -/
def bemfTenths (readback : Nat) : Nat :=
  if readback = 1 then 49 else if readback = 2 then 279 else if readback = 3 then 499 else 0

/-- The amplitude written when a host asks for `value` (48_host_conventions.md R138). -/
def amplitude (accelerationEnabled : Bool) (value : Byte) : Byte :=
  if accelerationEnabled && 0x7F#8 < value then 0x7F#8 else value

/-- The write of an amplitude to the register `reg` of a device: the whole byte (48_host_conventions.md R138). -/
def amplitudeWrite (dev reg : Byte) (accelerationEnabled : Bool) (value : Byte) : Instr :=
  .wrfld dev reg 0x00#8 (amplitude accelerationEnabled value) 0#8

end Sys2Proof.Machine
end

