-- ==== Sys2Proof/Tests/Slice0.lean ====
section
/-! SUPPORT. Tests whose expected results come from spec/: the words and vectors of 95_test_vectors.md (named V<n> there) and
the encodings of 30_encoding.md R51, R54. Then, for each statement with hypotheses, a witness that meets them. -/

namespace Sys2Proof.Tests

open Sys2Proof.Machine

/-! ### The test configuration of 95_test_vectors.md section 0 -/

/-- The parameters of the test configuration. -/
def params : Params where
  nbus := 1
  devTab := #v[⟨0, 0x4A⟩, ⟨0, 0x4B⟩, ⟨0, 0x4C⟩, ⟨0, 0x4D⟩, ⟨0, 0x4E⟩]
  legalRegs := [0x00, 0x13, 0x22, 0x23]
  encIncLevel := false
  rmwOnReadFail := .abort
  busReadRestart := true

/-- The slave of device 1. -/
def key1 : Key := ⟨0, 0x4A⟩

/-- The unwired key of device 3. -/
def key3 : Key := ⟨0, 0x4C⟩

/-- The idle block on the test bench, with nothing in it. -/
def bench : State where
  cfg := params
  seq := none
  count := 0
  tick := 0
  tStart := 0
  tModel := 0
  mode := 0
  duty0 := 0
  duty1 := 0
  cmds := []
  rsps := []
  busHist := []
  dutyHist := []
  env := .bench
  agenda := []
  replies := []
  draws := 0
  wired := [⟨0, 0x4A⟩, ⟨0, 0x4B⟩]
  mem := []

/-- The bench with one byte in one register of device 1. -/
def holding (reg v : Byte) : State := { bench with mem := [(cellAddr key1 reg, v)] }

/-- The bench with an operation in progress. -/
def during (op : Instr) (ph : Phase) (w : Work) : State := { bench with seq := some ⟨op, ph, w⟩ }

/-- What an observation of the state after `n` steps is, if the run gets there. -/
def after {α : Type} (n : Nat) (s : State) (f : State → α) : Option α :=
  match runs n s with
  | .next t    => some (f t)
  | .fault _   => none
  | .refused _ => none

/-- Everything the block puts out in `n` steps that run the word `w`. -/
def outputs (n : Nat) (s : State) (w : CmdWord) : Option (List RspWord × List BusTxn × List PwmSet) :=
  after n { s with cmds := [w] } (fun t => (t.rsps, t.busHist, t.dutyHist))

/-! ### Well-formedness: one ill-formed term for each check of 30_encoding.md R55 -/

theorem test_wf_bus : (Instr.bwr 1 0x4A 0 0).WellFormed params = false := by decide
theorem test_wf_addr : (Instr.brd 0 0x80 0).WellFormed params = false := by decide
theorem test_wf_shift : (Instr.wrfld 1 0x13 0 0 8).WellFormed params = false := by decide
theorem test_wf_mode : (Instr.modewr 6).WellFormed params = false := by decide
theorem test_wf_cw : (Instr.rot 2 0 0).WellFormed params = false := by decide
theorem test_wf_ch : (Instr.pwmwr 2 0).WellFormed params = false := by decide
/-- 00_scope.md R6, 10_state.md R18: no port, five ports, a device on a port that does not exist. -/
theorem test_params_legal : params.legal = true ∧ { params with nbus := 4 }.legal = true ∧
    { params with nbus := 0 }.legal = false ∧ { params with nbus := 5 }.legal = false ∧
    { params with devTab := params.devTab.set 4 ⟨1, 0x4E⟩ }.legal = false := by decide
theorem test_wf_largest : (Instr.bwr 0 0x7F 0xFF 0xFF).WellFormed params = true ∧
    (Instr.wrfld 0 0xFF 0xFF 0xFF 7).WellFormed params = true ∧ (Instr.modewr 5).WellFormed params = true ∧
    (Instr.rot 1 0xFF 0xFFFFFFFF).WellFormed params = true ∧ (Instr.pwmwr 1 0xFF).WellFormed params = true := by decide

/-! ### Decoding: a word of each operation, written field by field from 30_encoding.md R51 -/

theorem test_decode_bwr : decode 0x10_02_7F_AB_CD_000000#64 = .ok (.bwr 0x02 0x7F 0xAB 0xCD) := by decide
theorem test_decode_brd : decode 0x11_03_4B_13_00000000#64 = .ok (.brd 0x03 0x4B 0x13) := by decide
theorem test_decode_rdreg : decode 0x20_05_22_0000000000#64 = .ok (.rdreg 0x05 0x22) := by decide
theorem test_decode_wrfld : decode 0x21_02_23_E0_15_03_0000#64 = .ok (.wrfld 0x02 0x23 0xE0 0x15 0x03) := by decide
theorem test_decode_encrd : decode 0x3000000000000000#64 = .ok .encrd := by decide
theorem test_decode_encclr : decode 0x3100000000000000#64 = .ok .encclr := by decide
theorem test_decode_tmark : decode 0x3200000000000000#64 = .ok .tmark := by decide
theorem test_decode_tmrd : decode 0x3300000000000000#64 = .ok .tmrd := by decide
theorem test_decode_moderd : decode 0x3400000000000000#64 = .ok .moderd := by decide
theorem test_decode_modewr : decode 0x35_04_000000000000#64 = .ok (.modewr 0x04) := by decide
theorem test_decode_rot : decode 0x40_01_64_00_005A1234#64 = .ok (.rot 0x01 0x64 0x005A1234) := by decide
theorem test_decode_pwmwr : decode 0x41_01_FE_0000000000#64 = .ok (.pwmwr 0x01 0xFE) := by decide

/-! ### Refusals (V1 to V15, V78 to V80): the response, no transaction and no duty event -/

theorem test_v2_undefined : outputs 1 bench 0xFFFFFFFFFFFFFFFF = some ([0xFF02000000000000], [], []) := by decide
theorem test_v5_zero_field : outputs 1 bench 0x2001130000000001 = some ([0x2002000000000000], [], []) := by decide
theorem test_v6_brd_data : outputs 1 bench 0x11004A0001000000 = some ([0x1102000000000000], [], []) := by decide
theorem test_v8_addr : outputs 1 bench 0x100080237F000000 = some ([0x1003000000000000], [], []) := by decide
theorem test_v13_device_first : outputs 1 bench 0x2000140000000000 = some ([0x2004000000000000], [], []) := by decide
theorem test_v14_operand_first : outputs 1 bench 0x2100140000090000 = some ([0x2103000000000000], [], []) := by decide
theorem test_v15_zero_first : outputs 1 bench 0x2100140000090001 = some ([0x2102000000000000], [], []) := by decide
theorem test_v80_rot_zero : outputs 1 bench 0x40016401005A0000 = some ([0x4002000000000000], [], []) := by decide

/-! ### Bus master (V16 to V19b) -/

theorem test_v16_bwr : after 2 { holding 0x23 0x00 with cmds := [0x10004A237F000000] }
    (fun t => (t.rsps, t.busHist, Memory.read t.mem (cellAddr key1 0x23))) =
    some ([0x1000000000000000], [.write key1 0x23 0x7F none], some 0x7F) := by decide
theorem test_v19a_bwr_unwired : outputs 2 bench 0x100050237F000000 =
    some ([0x1001000000000000], [.write ⟨0, 0x50⟩ 0x23 0x7F (some .nackAddress)], []) := by decide
theorem test_v17_brd : outputs 2 (holding 0x00 0xBA) 0x11004A0000000000 =
    some ([0x11000000000000BA], [.read key1 0x00 0xBA none], []) := by decide
theorem test_v18_brd_unwired : outputs 2 bench 0x1100500000000000 =
    some ([0x1101000000000000], [.read ⟨0, 0x50⟩ 0x00 0x00 (some .nackAddress)], []) := by decide

/-! ### Codec (V20 to V39) -/

theorem test_v32_rdreg : outputs 2 (holding 0x13 0x2C) 0x2001130000000000 =
    some ([0x200000000000002C], [.read key1 0x13 0x2C none], []) := by decide
theorem test_v33_rdreg_unwired : outputs 2 bench 0x2003130000000000 =
    some ([0x2001000000000000], [.read key3 0x13 0x00 (some .nackAddress)], []) := by decide
theorem test_v20_v22_v31_mask : newByte 0x0C 0xDF 0x01 5 = 0x2C ∧ newByte 0xFF 0xE0 0x15 0 = 0xF5 ∧
    newByte 0x00 0xE0 0x3F 0 = 0x3F ∧ newByte 0x00 0xFF 0xFF 4 = 0xF0 ∧ newByte 0x81 0x7F 0x03 7 = 0x81 := by decide
theorem test_v20_wrfld : outputs 3 (holding 0x13 0x0C) 0x210113DF01050000 =
    some ([0x2100000000000000], [.read key1 0x13 0x0C none, .write key1 0x13 0x2C none], []) := by decide
theorem test_v34_wrfld_abort : outputs 2 bench 0x210313DF01050000 =
    some ([0x2101000000000000], [.read key3 0x13 0x00 (some .nackAddress)], []) := by decide
theorem test_v35_wrfld_proceed :
    outputs 3 { bench with cfg := { params with rmwOnReadFail := .proceedWithZero } } 0x210313DF01050000 =
    some ([0x2101000000000000],
      [.read key3 0x13 0x00 (some .nackAddress), .write key3 0x13 0x20 (some .nackAddress)], []) := by decide
theorem test_v36_write_fails : outputs 3 { bench with replies := [.done 0x0C, .fail .other true] } 0x210113DF01050000 =
    some ([0x2101000000000000], [.read key1 0x13 0x0C none, .write key1 0x13 0x2C (some .other)], []) := by decide

/-- P5: the slave's bit 7, set in the gap, is lost; the edges in the gap are counted. -/
theorem test_p5_gap : after 6 { holding 0x13 0x0C with
      count := 100, cmds := [0x210113DF01050000],
      agenda := [.block, .block, .edge false, .edge false, .slave key1 0x13 0x8C, .block] }
    (fun t => (t.rsps, t.count, Memory.read t.mem (cellAddr key1 0x13))) =
    some ([0x2100000000000000], 102, some 0x2C) := by decide

/-- 70_reset_and_hazards.md R207: RDREG's answer (V32) ends the run; the edge before it counts, the one after it is no part
of the run. -/
theorem test_run_end : (runProgram 5 [0x2001130000000000] { holding 0x13 0x2C with
      agenda := [.block, .edge false, .block, .edge false] }).map (fun r => (r.rsps, r.busHist, r.final.count)) =
    some ([0x200000000000002C], [.read key1 0x13 0x2C none], 1) := by decide

/-! ### Encoder tracker (V40 to V55) -/

/-- `COUNT`, `MODE` and `T_MODEL`. -/
def tracked (s : State) : Word × BitVec 3 × Word := (s.count, s.mode, s.tModel)

theorem test_v40_v41_edges : (edge false { bench with count := 5 }).count = 6 ∧
    (edge true { bench with count := 5 }).count = 4 := by decide
theorem test_v42_v43_wrap : tracked (edge false { bench with count := 0xFFFFFFFF }) = (0, 0, 0) ∧
    tracked (edge true bench) = (0xFFFFFFFF, 0, 0) := by decide
theorem test_v44_v45_revolution :
    tracked (edge false { bench with count := 15, mode := 2, tStart := 5000, tick := 5037 }) = (16, 3, 37) ∧
    tracked (edge false { bench with count := 15, mode := 1, tStart := 5000, tick := 5037, tModel := 9 }) = (16, 1, 9) := by
  decide
theorem test_v46_v47_wrapped :
    tracked (edge true { bench with count := 0xFFFFFFF1, mode := 2, tStart := 5000, tick := 5100 }) =
      (0xFFFFFFF0, 3, 100) ∧
    tracked (edge false { bench with count := 15, mode := 2, tStart := 0xFFFFFFF0, tick := 0x10 }) = (16, 3, 0x20) := by
  decide
theorem test_v49_encrd : outputs 1 { bench with count := 0x118C } 0x3000000000000000 =
    some ([0x300000000000118C], [], []) := by decide
theorem test_v50_encclr : after 1 { bench with count := 0x1234, mode := 2, cmds := [0x3100000000000000] }
    (fun t => (t.rsps, tracked t)) = some ([0x3100000000000000], 0, 2, 0) := by decide
theorem test_v51_tmark : after 1 { bench with tick := 5000, cmds := [0x3200000000000000] }
    (fun t => (t.rsps, t.tStart)) = some ([0x3200000000000000], 5000) := by decide
theorem test_v52_tmrd : outputs 1 { bench with tModel := 37 } 0x3300000000000000 =
    some ([0x3300000000000025], [], []) := by decide
theorem test_v53_moderd : outputs 1 { bench with mode := 3 } 0x3400000000000000 =
    some ([0x3400000000000003], [], []) := by decide
theorem test_v54_modewr : after 1 { bench with mode := 3, cmds := [0x3504000000000000] }
    (fun t => (t.rsps, t.mode)) = some ([0x3500000000000000], 4) := by decide
theorem test_v55_modewr_6 : after 1 { bench with mode := 3, cmds := [0x3506000000000000] }
    (fun t => (t.rsps, t.mode)) = some ([0x3503000000000000], 3) := by decide

/-! ### Rotation controller and PWM (V57 to V79, P3) -/

theorem test_v57_target : target 0x292 = 0 ∧ target 0x293 = 1 ∧ target 13824 = 11 ∧ target 0x005A0000 = 4480 ∧
    target 0x02D04000 = 35852 ∧ target 0xFFFFFFFF = 3262236 := by decide
theorem test_v58_delta : delta 0xFFFFFF00 0x1080 = 4480 ∧ delta 0x10 0xFFFFFFF0 = 32 ∧ delta 5 3 = 2 ∧
    delta 0 0x80000001 = 2147483647 ∧ delta 0 0x80000000 = 2147483648 := by decide
theorem test_v59_decision : reached 4480 4479 = false ∧ timedOut 20000 20999 = false ∧ reached 4480 4600 = true ∧
    timedOut 20000 21000 = true ∧ timedOut 0xFFFFFF00 0x2E8 = true ∧ reached 0 0 = true := by decide

/-- P3 from the command to the first drive. -/
theorem test_p3_drives : outputs 5 { bench with count := 0x118C, tick := 20000 } 0x40016400005A0000 =
    some ([], [], [⟨.ch0, 100⟩, ⟨.ch1, 0⟩]) := by decide

/-- P3 (d) at its last iteration: counter-clockwise, reached at tick 20448. -/
theorem test_p3_reaches : after 2 { during (.rot 0 100 0x005A0000) .r2
      { Work.fresh with target := 4480, start := 0x118C, t0 := 20000 } with count := 0x0C, tick := 20448 }
    (fun t => (t.rsps, t.duty0, t.duty1, t.seq)) = some ([0x4000000000000001], 255, 255, none) := by decide
theorem test_v76_pwmwr : outputs 1 bench 0x4101FF0000000000 =
    some ([0x4100000000000000], [], [⟨.ch1, 255⟩]) := by decide

/-! ### The forms outside the step -/

/-- 30_encoding.md R60. -/
theorem test_text : asmText (.wrfld 1 0x13 0xDF 0x01 5) = "WRFLD 1, 19, 223, 1, 5" ∧ asmText .encrd = "ENCRD" ∧
    responseText .ok 37 = "-> OK, 37" ∧ angleOfDegrees 90 1 = 0x005A0000 := by decide

/-- V61, V66, V69, V70, V71, V74, V75. -/
theorem test_host_formulas : encodeVolts ⟨1, 1⟩ = 43 ∧ encodeVolts ⟨598, 100⟩ = 256 ∧ encodeMilliamps ⟨200, 1⟩ = 24 ∧
    encodeMilliamps ⟨0, 1⟩ = -4 ∧ encodeMilliamps ⟨249, 10⟩ = -1 ∧ encodePeriod ⟨170, 1⟩ = 4412 ∧
    periodRegisters 4412 = (0x22, 0xBC) ∧ encodeOhms ⟨675, 100⟩ 24 = 117 ∧ encodeOhms ⟨138, 10⟩ 26 = 257 ∧
    maxCurrentField 0xB8 = 24 ∧ amplitude true 0xFF = 0x7F ∧ amplitude false 0xFF = 0xFF := by decide

/-- 40_bus_master.md R74: the frame of a read that completed, on the wires bit by bit in its first byte. -/
theorem test_frame : (BusTxn.frame true (.read key1 0x13 0x2C none)).map (fun f => (f.take 3).flatMap WireItem.bits) =
    some [true, false, false, true, false, true, false, false, false] := by decide

/-! ### Witnesses: states and operands that meet the hypotheses of the statements of Certificates/Slice0 -/

theorem witness_EncodeOfDecode : decode 0x210113DF01070000#64 = .ok (.wrfld 0x01 0x13 0xDF 0x01 0x07) := by decide

/-- One word for each clause: it decodes, it matches a row, two rows it matches are one. -/
theorem witness_OpcodeMap : decode 0x4001FF00FFFFFFFF#64 = .ok (.rot 1 0xFF 0xFFFFFFFF) ∧
    ∃ r ∈ opcodeTable, r.mnemonic = "ROT" ∧ 0x4001FF00FFFFFFFF#64 &&& r.mask = r.value := by decide

/-- The three clauses: a word presented, an operation in progress, nothing sent. -/
theorem witness_StepRuns :
    (∃ s : State, s.agenda = [.block] ∧ s.seq = none ∧ s.cmds = [0x3000000000000000#64] ∧
      decode 0x3000000000000000#64 = .ok .encrd) ∧
    (∃ s : State, s.agenda = [.block] ∧ s.seq = some ⟨.rdreg 1 0x13, .rd, Work.fresh⟩) ∧
    (∃ s : State, s.agenda = [.block] ∧ s.seq = none ∧ s.cmds = []) :=
  ⟨⟨{ bench with agenda := [.block], cmds := [0x3000000000000000#64] }, by decide⟩,
   ⟨{ during (.rdreg 1 0x13) .rd Work.fresh with agenda := [.block] }, by decide⟩,
   ⟨{ bench with agenda := [.block] }, by decide⟩⟩

theorem witness_IllegalWord : ∃ (s : State) (w : CmdWord), s.agenda = [.block] ∧ s.seq = none ∧ s.cmds = [w] ∧
    ∀ r ∈ opcodeTable, w &&& r.mask ≠ r.value :=
  ⟨{ bench with agenda := [.block], cmds := [0x3000000000000001#64] }, 0x3000000000000001#64, by decide⟩

/-- The lowest value each clause refuses. -/
theorem witness_OperandOutOfRange : bench.seq = none ∧ bench.cfg.nbus ≤ (1#8).toNat ∧ 0x80 ≤ (0x80#8).toNat ∧
    8 ≤ (8#8).toNat ∧ 6 ≤ (6#8).toNat ∧ 2 ≤ (2#8).toNat := by decide

/-- Devices 0 and 6 are outside the table, 1 and 5 its ends; 0x14 is no legal register, 0x13 one. -/
theorem witness_CodecLookup : bench.seq = none ∧ (0#8).toNat < 1 ∧ 5 < (6#8).toNat ∧ (7#8).toNat < 8 ∧
    1 ≤ (1#8).toNat ∧ bench.cfg.devTab[(1#8).toNat - 1]? = some ⟨0, 0x4A⟩ ∧
    bench.cfg.devTab[(5#8).toNat - 1]? = some ⟨0, 0x4E⟩ ∧ 0x14#8 ∉ bench.cfg.legalRegs ∧ 0x13#8 ∈ bench.cfg.legalRegs := by
  decide

/-- One word for each of the four refusals. -/
theorem witness_Refusal : bench.seq = none ∧
    present 0x9900000000000000 bench = .next (raise 0x99 .illegalCmd bench) ∧
    present 0x3506000000000000 bench = .next (raise 0x35 .illegalOperand bench) ∧
    present 0x2006130000000000 bench = .next (raise 0x20 .noDevice bench) ∧
    present 0x2001140000000000 bench = .next (raise 0x20 .illegalReg bench) := by
  exact ⟨rfl, rfl, rfl, rfl, rfl⟩

/-- An idle state, for the operations of one step; the last mode accepted and the first refused; the first channel
refused. -/
theorem witness_Idle : bench.seq = none ∧ (5#8).toNat < 6 ∧ 6 ≤ (6#8).toNat ∧ 2 ≤ (2#8).toNat := by decide

theorem witness_BusAccepted : bench.seq = none ∧ (0#8).toNat < bench.cfg.nbus ∧ (0x7F#8).toNat < 0x80 := by decide

/-- A transaction in each of the ways it can be answered: a fixed answer, a wired slave, an unwired key. -/
theorem witness_AnsweredBy :
    AnsweredBy { bench with replies := [.fail .nackLast true] } key1 0x13 (.fail .nackLast true) [] 0 ∧
    AnsweredBy (holding 0x13 0x2C) key1 0x13 (.done 0x2C) [] 0 ∧
    AnsweredBy bench key3 0x13 (.fail .nackAddress false) [] 0 :=
  ⟨.inl ⟨rfl, rfl⟩, .inr (.inl ⟨rfl, rfl, rfl, rfl, by decide⟩), .inr (.inl ⟨rfl, rfl, rfl, rfl, by decide⟩)⟩

/-- The real environment answers with a free value. -/
theorem witness_AnsweredByReal :
    AnsweredBy { bench with env := .real } key1 0x13 (Config.busReply 0) [] 1 :=
  .inr (.inr ⟨rfl, rfl, rfl, rfl, rfl⟩)

theorem witness_Bwr : (during (.bwr 0 0x4A 0x23 0x7F) .bus { Work.fresh with key := key1 }).seq =
      some ⟨.bwr 0 0x4A 0x23 0x7F, .bus, { Work.fresh with key := key1 }⟩ ∧
    AnsweredBy (during (.bwr 0 0x4A 0x23 0x7F) .bus { Work.fresh with key := key1 }) key1 0x23
      (.done (Config.slavePowerUp (cellAddr key1 0x23))) [] 0 :=
  ⟨rfl, .inr (.inl ⟨rfl, rfl, rfl, rfl, rfl⟩)⟩

theorem witness_BrdRdreg :
    AnsweredBy (during (.brd 0 0x4C 0x00) .bus { Work.fresh with key := key3 }) key3 0x00
      (.fail .nackAddress false) [] 0 ∧
    AnsweredBy (during (.rdreg 3 0x00) .rd { Work.fresh with key := key3 }) key3 0x00
      (.fail .nackAddress false) [] 0 :=
  ⟨.inr (.inl ⟨rfl, rfl, rfl, rfl, by decide⟩), .inr (.inl ⟨rfl, rfl, rfl, rfl, by decide⟩)⟩

/-- WRFLD's phases: the read fails under each policy or succeeds, then the write. -/
theorem witness_Wrfld :
    (let s := during (.wrfld 3 0x13 0xDF 1 5) .rd { Work.fresh with key := key3 }
     AnsweredBy s key3 0x13 (.fail .nackAddress false) [] 0 ∧ s.cfg.rmwOnReadFail = .abort) ∧
    (let s := { during (.wrfld 3 0x13 0xDF 1 5) .rd { Work.fresh with key := key3 } with
                cfg := { params with rmwOnReadFail := .proceedWithZero } }
     AnsweredBy s key3 0x13 (.fail .nackAddress false) [] 0 ∧ s.cfg.rmwOnReadFail = .proceedWithZero) ∧
    (let s := { during (.wrfld 1 0x13 0xDF 1 5) .rd { Work.fresh with key := key1 } with replies := [.done 0x0C] }
     AnsweredBy s key1 0x13 (.done 0x0C) [] 0) ∧
    (let s := { during (.wrfld 1 0x13 0xDF 1 5) .wr { Work.fresh with key := key1, old := 0x0C, readOk := true } with
                replies := [.done 0x00] }
     AnsweredBy s key1 0x13 (.done 0x00) [] 0) :=
  ⟨⟨.inr (.inl ⟨rfl, rfl, rfl, rfl, by decide⟩), rfl⟩, ⟨.inr (.inl ⟨rfl, rfl, rfl, rfl, by decide⟩), rfl⟩,
   .inl ⟨rfl, rfl⟩, .inl ⟨rfl, rfl⟩⟩

theorem witness_WrfldBits : (7#8).toNat < 8 ∧ 7 < 8 := by decide

/-- A store by BWR and one by WRFLD, each on a wired slave. -/
theorem witness_Store :
    (∃ t, exec (.bwr 0 0x4A 0x23 0x7F)
      (during (.bwr 0 0x4A 0x23 0x7F) .bus { Work.fresh with key := key1 }) = .next t) ∧
    (∃ t, exec (.wrfld 1 0x13 0xDF 1 5)
      (during (.wrfld 1 0x13 0xDF 1 5) .wr { Work.fresh with key := key1, old := 0x0C, readOk := true }) = .next t) ∧
    bench.env = .bench ∧ key1 ∈ bench.wired ∧ bench.replies = [] :=
  ⟨⟨_, rfl⟩, ⟨_, rfl⟩, rfl, by decide, rfl⟩

theorem witness_SlaveCells : cellAddr key1 0xFF = cellAddr ⟨0, 0x4A⟩ 0xFF := by decide

theorem witness_WrfldUpdates : bench.env = .bench ∧ bench.agenda = [] ∧ bench.replies = [] ∧ bench.seq = none ∧
    (7#8).toNat < 8 ∧ 1 ≤ (2#8).toNat ∧ bench.cfg.devTab[(2#8).toNat - 1]? = some ⟨0, 0x4B⟩ ∧
    0x23#8 ∈ bench.cfg.legalRegs ∧ (⟨0, 0x4B⟩ : Key) ∈ bench.wired ∧
    { bench with cmds := [encode (.wrfld 2 0x23 0 0x7F 7)] }.cmds = encode (.wrfld 2 0x23 0 0x7F 7) :: [] := by decide

theorem witness_BenchReadAfterWrite : ∃ s : State, s.env = .bench ∧ s.agenda = [] ∧ s.replies = [] ∧ s.seq = none ∧
    s.cmds = [encode (.bwr 0 0x4B 0x14 1), encode (.brd 0 0x4B 0x14)] ∧ (0#8).toNat < s.cfg.nbus ∧
    (0x4B#8).toNat < 0x80 ∧ (⟨0, (0x4B#8).extractLsb' 0 7⟩ : Key) ∈ s.wired :=
  ⟨{ bench with cmds := [encode (.bwr 0 0x4B 0x14 1), encode (.brd 0 0x4B 0x14)] }, by decide⟩

theorem witness_WrfldGap : ∃ s : State, s.env = .bench ∧ s.replies = [] ∧ key1 ∈ s.wired ∧
    s.seq = some ⟨.wrfld 1 0x13 0xDF 1 5, .rd, { Work.fresh with key := key1 }⟩ ∧
    s.agenda = [.block, .slave key1 0x13 0x8C, .block] :=
  ⟨{ during (.wrfld 1 0x13 0xDF 1 5) .rd { Work.fresh with key := key1 } with
     agenda := [.block, .slave key1 0x13 0x8C, .block] }, by decide⟩

theorem witness_WireFrames : BusTxn.frame false (.read key1 0x13 0 (some .nackRegister)) =
    some [.start, .master 0x94, .slaveAck false, .master 0x13, .slaveAck true, .stop] := by decide

/-- A step that makes a transaction. -/
theorem witness_OneTransaction : ∃ t, step { during (.bwr 0 0x4A 0x23 0x7F) .bus { Work.fresh with key := key1 } with
    replies := [.done 0] } = .next t ∧ t.busHist = [.write key1 0x23 0x7F none] := ⟨_, rfl, rfl⟩

theorem witness_EventsCommute : ∃ t, exec (.rdreg 1 0x13) { during (.rdreg 1 0x13) .rd { Work.fresh with key := key1 } with
    replies := [.done 0] } = .next t := ⟨_, rfl⟩

/-- An edge that is no revolution tick in mode Model, and one that is. -/
theorem witness_EdgeHandler : ∃ s : State, s.agenda = [.edge false] ∧ s.mode = 2#3 ∧
    (s.count + 1#32).extractLsb' 0 4 = 0#4 ∧ ¬ ((s.count - 1#32).extractLsb' 0 4 = 0#4 ∧ s.mode = 2#3) :=
  ⟨{ bench with count := 0xFFFFFFFF, mode := 2, agenda := [.edge false] }, by decide⟩

theorem witness_SixteenPulses : ∃ (s : State) (l : List Turn), s.mode = 2#3 ∧ s.count = 0#32 ∧
    (∀ x ∈ l, x = .edge true ∨ x = .tick) ∧ l.count (.edge true) = 15 ∧ s.agenda = l ++ .edge true :: [] :=
  ⟨{ bench with mode := 2, agenda := (.tick :: List.replicate 15 (.edge true)) ++ [.edge true] },
    .tick :: List.replicate 15 (.edge true), by decide⟩

theorem witness_Events : ∃ s t : State, (nextTurn s).1 ≠ .block ∧ step s = .next t :=
  ⟨{ bench with agenda := [.tick] }, _, by decide, rfl⟩

/-- ROT is accepted in an idle state and has its phases R0, R1, R2. -/
theorem witness_RotLatches : bench.seq = none ∧ (1#8).toNat < 2 ∧
    (during (.rot 1 100 0) .r0 Work.fresh).seq = some ⟨.rot 1 100 0, .r0, Work.fresh⟩ ∧
    (during (.rot 1 100 0) .r1 Work.fresh).seq = some ⟨.rot 1 100 0, .r1, Work.fresh⟩ ∧
    (during (.rot 1 100 0) .r2 Work.fresh).seq = some ⟨.rot 1 100 0, .r2, Work.fresh⟩ := by decide

/-- V59 to V59c: reached at the target, timed out at 1000, and neither one pulse and one tick before. -/
theorem witness_RotDecides :
    (4480#32).toNat ≤ (delta 0 4480).toNat ∧ 1000 ≤ (21000#32 - 20000#32).toNat ∧
    (delta 0 4479).toNat < (4480#32).toNat ∧ (20999#32 - 20000#32).toNat < 1000 ∧
    (during (.rot 1 100 0x005A0000) .r3 { Work.fresh with target := 4480, cur := 4479 }).seq =
      some ⟨.rot 1 100 0x005A0000, .r3, { Work.fresh with target := 4480, cur := 4479 }⟩ ∧ (0#8) ≠ 1#8 := by decide

theorem witness_RotEnds : ∃ s : State, s.seq = some ⟨.rot 1 100 0x005A0000, .r2, Work.fresh⟩ ∧
    1000 ≤ (s.tick - Work.fresh.t0).toNat ∧ s.agenda = [.block, .block] :=
  ⟨{ during (.rot 1 100 0x005A0000) .r2 Work.fresh with tick := 1000, agenda := [.block, .block] }, by decide⟩

/-- ROT 0 degrees from R0: four steps, no drive, one brake. -/
theorem witness_RotDutyHistory : ∃ s t : State, s.seq = some ⟨.rot 1 100 0, .r0, Work.fresh⟩ ∧ runs 4 s = .next t ∧
    t.dutyHist = [⟨.ch0, 255⟩, ⟨.ch1, 255⟩] ∧ t.seq = none ∧
    ∀ m u, m < 4 → runs m s = .next u → u.seq ≠ none :=
  ⟨during (.rot 1 100 0) .r0 Work.fresh, _, rfl, rfl, rfl, rfl, by
    intro m u hm h
    interval_cases m <;> (cases h; decide)⟩

theorem witness_Busy : ∃ s t : State, ∃ p, s.seq = some p ∧ step s = .next t :=
  ⟨during (.rot 1 100 0) .r0 Work.fresh, _, _, rfl, rfl⟩

/-- A step that gives a response. -/
theorem witness_OneResponse : ∃ t, step { bench with cmds := [0x3000000000000000] } = .next t ∧
    t.rsps = [0x3000000000000000#64] ∧ owed t = 0 := ⟨_, rfl, by decide, rfl⟩

/-- A state with an operation in progress, a response given and a cell written meets the invariant. -/
theorem witness_Inv : Inv { during (.rot 1 100 0x005A0000) .r2 { Work.fresh with target := 4480 } with
    rsps := [0x3000000000000010], mem := [(cellAddr key1 0x13, 0x2C)], mode := 5 } where
  paramsLegal := by decide
  wiringLegal := by
    show ∀ k ∈ bench.wired, k.bus.toNat < bench.cfg.nbus
    decide
  cellsWired := by
    intro c h
    rw [List.mem_singleton.1 h]
    exact ⟨key1, by decide, 0x13, rfl⟩
  seqLegal := by
    intro p h
    cases h
    exact ⟨by decide, by decide, by show (4480#32 : Word) = target 0x005A0000; decide⟩
  modeLegal := show (5#3).toNat ≤ 5 by decide
  memCanonical := by decide
  responsesLegal := by
    intro r h
    rw [List.mem_singleton.1 h]
    decide

/-- `COUNT` changes by an edge and by ENCCLR. -/
theorem witness_CountWriters :
    (∃ s t : State, step s = .next t ∧ t.count ≠ s.count ∧ (nextTurn s).1 = .edge false) ∧
    (∃ s t : State, step s = .next t ∧ t.count ≠ s.count ∧ (nextTurn s).1 = .block) :=
  ⟨⟨{ bench with agenda := [.edge false] }, _, rfl, by decide, rfl⟩,
   ⟨{ bench with count := 1, cmds := [0x3100000000000000] }, _, rfl, by decide, rfl⟩⟩

/-- `TICK`, `T_START` and `T_MODEL` each change. -/
theorem witness_TimeWriters :
    (∃ s t : State, step s = .next t ∧ t.tick ≠ s.tick) ∧
    (∃ s t : State, step s = .next t ∧ t.tStart ≠ s.tStart) ∧
    (∃ s t : State, step s = .next t ∧ t.tModel ≠ s.tModel) :=
  ⟨⟨{ bench with agenda := [.tick] }, _, rfl, by decide⟩,
   ⟨{ bench with tick := 5000, cmds := [0x3200000000000000] }, _, rfl, by decide⟩,
   ⟨{ bench with count := 15, mode := 2, tick := 37, agenda := [.edge false] }, _, rfl, by decide⟩⟩

/-- `MODE` changes by an edge and by MODEWR. -/
theorem witness_ModeWriters :
    (∃ s t : State, step s = .next t ∧ t.mode ≠ s.mode ∧ (nextTurn s).1 = .edge false) ∧
    (∃ s t : State, step s = .next t ∧ t.mode ≠ s.mode ∧ (nextTurn s).1 = .block) :=
  ⟨⟨{ bench with count := 15, mode := 2, agenda := [.edge false] }, _, rfl, by decide, rfl⟩,
   ⟨{ bench with cmds := [0x3505000000000000] }, _, rfl, by decide, rfl⟩⟩

/-- A duty changes by PWMWR and by phase R3 of ROT. -/
theorem witness_DutyWriters :
    (∃ s t : State, step s = .next t ∧ t.duty1 ≠ s.duty1 ∧ s.seq = none) ∧
    (∃ s t : State, step s = .next t ∧ t.duty0 ≠ s.duty0 ∧ s.seq = some ⟨.rot 1 100 0, .r3, Work.fresh⟩) :=
  ⟨⟨{ bench with cmds := [0x4101FF0000000000] }, _, rfl, by decide, rfl⟩,
   ⟨during (.rot 1 100 0) .r3 Work.fresh, _, rfl, by decide, rfl⟩⟩

/-- A cell changes by the slave itself and by a write transaction. -/
theorem witness_CellWriters :
    (∃ s t : State, step s = .next t ∧ t.mem ≠ s.mem ∧ (nextTurn s).1 = .slave key1 0x13 0x8C) ∧
    (∃ s t : State, step s = .next t ∧ t.mem ≠ s.mem ∧ (nextTurn s).1 = .block) :=
  ⟨⟨{ bench with agenda := [.slave key1 0x13 0x8C] }, _, rfl, by decide, rfl⟩,
   ⟨{ during (.bwr 0 0x4A 0x23 0x7F) .bus { Work.fresh with key := key1 } with replies := [.done 0] }, _, rfl, by decide,
     rfl⟩⟩

/-- A run with a command owed whose last response comes before an edge: the edge is no part of it. -/
theorem witness_RunEnds : owed { bench with cmds := [0x3000000000000000], agenda := [.block, .edge false] } ≠ 0 ∧
    (endOf 5 { bench with cmds := [0x3000000000000000], agenda := [.block, .edge false] }).map
      (fun t => (t.count, t.agenda)) = some (0, [.edge false]) := by decide

/-- A transaction on the highest port of four, from a state that meets the invariant. -/
theorem witness_ExistingPorts : ∃ s t : State, Inv s ∧ step s = .next t ∧ s.cfg.nbus = 4 ∧
    t.busHist = s.busHist ++ [.write ⟨3, 0x4A⟩ 0x23 0x7F none] :=
  ⟨{ during (.bwr 3 0x4A 0x23 0x7F) .bus { Work.fresh with key := ⟨3, 0x4A⟩ } with
     cfg := { params with nbus := 4 }, wired := [], replies := [.done 0] }, _,
   { paramsLegal := by decide
     wiringLegal := by intro k h; simp at h
     seqLegal := by
       intro p h
       cases h
       exact ⟨by decide, by decide, rfl⟩
     modeLegal := show (0#3).toNat ≤ 5 by decide
     memCanonical := by decide
     cellsWired := by intro c h; simp [during, bench] at h
     responsesLegal := by intro r h; simp [during, bench] at h },
   rfl, rfl, rfl⟩

/-- A step of ROT in each of the three cases: it waits, drives, brakes. -/
theorem witness_RotStep :
    (∃ t, step (during (.rot 1 100 0) .r1 Work.fresh) = .next t ∧ t.dutyHist = []) ∧
    (∃ t, step (during (.rot 1 100 0x5A0000) .r3 { Work.fresh with target := 4480 }) = .next t ∧
      t.dutyHist = [⟨.ch0, 100⟩, ⟨.ch1, 0⟩]) ∧
    (∃ t, step (during (.rot 1 100 0) .r3 Work.fresh) = .next t ∧ t.dutyHist = [⟨.ch0, 255⟩, ⟨.ch1, 255⟩]) :=
  ⟨⟨_, rfl, rfl⟩, ⟨_, rfl, by decide⟩, ⟨_, rfl, by decide⟩⟩

theorem witness_Pseudo : bench.env = .bench ∧ bench.agenda = [] ∧ bench.seq = none ∧
    Pseudo.modelbegin.expand.map encode = [0x3200000000000000#64, 0x3100000000000000#64, 0x3502000000000000#64] ∧
    Pseudo.brake.expand.map encode = [0x4100FF0000000000#64, 0x4101FF0000000000#64] ∧
    Pseudo.coast.expand.map encode = [0x4100000000000000#64, 0x4101000000000000#64] ∧
    (Pseudo.wrreg 2 0x23 0x7F).expand.map encode = [0x210223007F000000#64] ∧ bench.replies = [] ∧ 1 ≤ (2#8).toNat ∧
    bench.cfg.devTab[(2#8).toNat - 1]? = some ⟨0, 0x4B⟩ ∧ 0x23#8 ∈ bench.cfg.legalRegs ∧
    (⟨0, 0x4B⟩ : Key) ∈ bench.wired := by decide

end Sys2Proof.Tests
end

/-! SUPPORT. The block's own move and the step, by what they can change: every move of the block is an effect on the
state, after which the operation is answered or goes on in a phase. -/

namespace Sys2Proof.Machine

/-! ### How a move of the block ends -/

/-- An operation in progress as `SeqLegal` asks for it under the parameters `c`: its operands checked, its phase its own,
its key or `TARGET` latched (10_state.md R11, R22). -/
def Checked (c : Params) (q : InProgress) : Prop :=
  q.op.WellFormed c = true ∧ hasPhase q.op q.ph = true ∧ latched c q.work q.op

/-- `q` is the operation `p` in one of its phases, with the key and `TARGET` latched at its acceptance. -/
def SameOperation (p q : InProgress) : Prop :=
  q.op = p.op ∧ hasPhase q.op q.ph = true ∧ q.work.key = p.work.key ∧ q.work.target = p.work.target

/-- From `u` the block gives a response, or `SEQ` becomes an operation of which `Q` holds. -/
inductive Settles (Q : InProgress → Prop) (u : State) : State → Prop
  | answered (op : Byte) (st : Status) (data : Word) : Settles Q u (respond op st data u)
  | goesOn (q : InProgress) (hq : Q q) : Settles Q u (enter q.op q.ph q.work u)

/-- How a move ends changes `SEQ` and the responses only. -/
theorem Settles.frame {Q : InProgress → Prop} {u t : State} (h : Settles Q u t) :
    ∃ q rs, t = { u with seq := q, rsps := rs } := by
  cases h with
  | answered op st data => exact ⟨_, _, rfl⟩
  | goesOn q hq => exact ⟨_, u.rsps, rfl⟩

/-- An operation that goes on has the property its move gives it. -/
theorem Settles.seq {Q : InProgress → Prop} {u t : State} {q : InProgress} (h : Settles Q u t) (ht : t.seq = some q) :
    Q q := by
  cases h with
  | answered op st data => simp at ht
  | goesOn q' hq =>
    obtain rfl : q' = q := by simpa using ht
    exact hq

/-- A move ends with one response or with none. -/
theorem Settles.rsps {Q : InProgress → Prop} {u t : State} (h : Settles Q u t) :
    t.rsps = u.rsps ∨ ∃ op st data, t.rsps = u.rsps ++ [responseWord op st data] := by
  cases h with
  | answered op st data => exact .inr ⟨op, st, data, rfl⟩
  | goesOn q hq => exact .inl rfl

/-- What an acceptance latched is the key and `TARGET`. -/
theorem latched_congr {c : Params} {w w' : Work} (hk : w'.key = w.key) (ht : w'.target = w.target) (i : Instr) :
    latched c w' i ↔ latched c w i := by
  cases i <;> simp only [latched, hk, ht]

/-- A checked operation stays one while its key and `TARGET` stay. -/
theorem SameOperation.checked {c : Params} {p q : InProgress} (h : SameOperation p q) (hp : Checked c p) :
    Checked c q := by
  obtain ⟨hop, hph, hkey, htarget⟩ := h
  obtain ⟨hw, -, hl⟩ := hp
  exact ⟨hop ▸ hw, hph, hop ▸ (latched_congr hkey htarget p.op).2 hl⟩

/-! ### A word presented -/

/-- What presenting the word `w` changes before the answer: nothing, or the register that its operation writes. -/
inductive PresentEffect (w : CmdWord) (s : State) : State → Prop
  | keep : PresentEffect w s s
  | encclr (hd : decode w = .ok .encclr) : PresentEffect w s { s with count := 0#32 }
  | tmark (hd : decode w = .ok .tmark) : PresentEffect w s { s with tStart := s.tick }
  | modewr (m : Byte) (hd : decode w = .ok (.modewr m)) (hm : m.toNat < 6) :
      PresentEffect w s { s with mode := modeOf m }
  | pwmwr (ch d : Byte) (hd : decode w = .ok (.pwmwr ch d)) (hch : ch.toNat < 2) :
      PresentEffect w s (setDuty (chanOf ch) d s)

/-- A word presented writes `COUNT`, `T_START`, `MODE` or the duties at most. -/
theorem PresentEffect.frame {w : CmdWord} {s u : State} (h : PresentEffect w s u) : ∃ c ts m d0 d1 dh,
    u = { s with count := c, tStart := ts, mode := m, duty0 := d0, duty1 := d1, dutyHist := dh } := by
  cases h with
  | pwmwr ch d hd hch => cases chanOf ch <;> exact ⟨_, _, _, _, _, _, rfl⟩
  | keep | encclr | tmark | modewr => exact ⟨_, _, _, _, _, _, rfl⟩

/-- A word presented has the effect of its operation, and the operation is answered, or begun with its checks passed. -/
theorem present_settles {w : CmdWord} {s t : State} (hq : s.seq = none) (h : present w s = .next t) :
    ∃ u, PresentEffect w s u ∧ Settles (Checked s.cfg) u t := by
  obtain ⟨op, st, -, rfl⟩ | ⟨i, hd, hw, ha⟩ := present_cases hq h
  · exact ⟨s, .keep, .answered op st 0#32⟩
  · have begun (ph : Phase) (wk : Work) (hp : hasPhase i ph = true) (hl : latched s.cfg wk i) :
        Settles (Checked s.cfg) s (enter i ph wk s) := .goesOn ⟨i, ph, wk⟩ ⟨hw, hp, hl⟩
    cases i with
    | bwr | brd | rot => exact ha ▸ ⟨s, .keep, begun _ _ rfl rfl⟩
    | rdreg | wrfld =>
      obtain ⟨k, hk, rfl⟩ := ha
      exact ⟨s, .keep, begun .rd _ rfl hk⟩
    | encrd | tmrd | moderd => exact ha ▸ ⟨s, .keep, .answered _ _ _⟩
    | encclr => exact ha ▸ ⟨_, .encclr hd, .answered _ _ _⟩
    | tmark => exact ha ▸ ⟨_, .tmark hd, .answered _ _ _⟩
    | modewr m => exact ha ▸ ⟨_, .modewr m hd (by simpa [Instr.WellFormed] using hw), .answered _ _ _⟩
    | pwmwr ch d => exact ha ▸ ⟨_, .pwmwr ch d hd (by simpa [Instr.WellFormed] using hw), .answered _ _ _⟩

/-! ### A phase of the operation in progress -/

/-- What a phase of `p` changes before the operation is answered or goes on: nothing, a bus transaction with the latched
key, or in phase R3 of ROT the duties. -/
inductive PhaseEffect (p : InProgress) (s : State) : State → Prop
  | keep : PhaseEffect p s s
  | read (reg : Byte) (hp : p.ph = .bus ∨ p.ph = .rd ∨ p.ph = .wr) : PhaseEffect p s (memRead p.work.key reg s).2
  | write (reg v : Byte) (hp : p.ph = .bus ∨ p.ph = .rd ∨ p.ph = .wr) :
      PhaseEffect p s (memWrite p.work.key reg v s).2
  | drive (cw speed : Byte) (angle : Word) (hi : p.op = .rot cw speed angle) (hp : p.ph = .r3) :
      PhaseEffect p s (drive cw speed s)
  | brake (cw speed : Byte) (angle : Word) (hi : p.op = .rot cw speed angle) (hp : p.ph = .r3) :
      PhaseEffect p s (brake s)

/-- A phase writes the inputs, the bus history, the slave cells or the duties at most. -/
theorem PhaseEffect.frame {p : InProgress} {s u : State} (h : PhaseEffect p s u) : ∃ rest d bh m d0 d1 dh,
    u = { s with replies := rest, draws := d, busHist := bh, mem := m, duty0 := d0, duty1 := d1, dutyHist := dh } := by
  cases h with
  | keep => exact ⟨_, _, _, _, _, _, _, rfl⟩
  | read reg =>
    obtain ⟨rest, d, byte, f, he⟩ := memRead_state p.work.key reg s
    exact ⟨_, _, _, _, _, _, _, he⟩
  | write reg v =>
    obtain ⟨rest, d, f, m, he, -⟩ := memWrite_state p.work.key reg v s
    exact ⟨_, _, _, _, _, _, _, he⟩
  | drive cw speed => exact ⟨_, _, _, _, _, _, _, drive_eq cw speed s⟩
  | brake => exact ⟨_, _, _, _, _, _, _, brake_eq s⟩

/-- Phase R3 of ROT brakes and answers, or drives on (43_rotation_controller.md R112). -/
theorem rotR3_cases (i : Instr) (cw speed : Byte) (w : Work) (s : State) :
    (∃ data, rotR3 i cw speed w s = respond i.opcode .ok data (brake s)) ∨
    ∃ w', rotR3 i cw speed w s = enter i .r2 w' (drive cw speed s) ∧ w'.key = w.key ∧ w'.target = w.target := by
  unfold rotR3
  dsimp only
  split
  · exact .inl ⟨_, rfl⟩
  · exact .inr ⟨_, rfl, rfl, rfl⟩

/-- A failed read ends WRFLD, or it goes on to its write phase (41_register_codec.md R82). -/
theorem wrfldRd_cases (i : Instr) (reg : Byte) (w : Work) (s : State) :
    (∃ st data, wrfldRd i reg w s = respond i.opcode st data (memRead w.key reg s).2) ∨
    ∃ w', wrfldRd i reg w s = enter i .wr w' (memRead w.key reg s).2 ∧ w'.key = w.key ∧ w'.target = w.target := by
  unfold wrfldRd
  dsimp only
  split
  · exact .inl ⟨_, _, rfl⟩
  · exact .inr ⟨_, rfl, rfl, rfl⟩

/-- A phase has its effect, and the operation is answered, or goes on in one of its phases. -/
theorem advanced_settles {p : InProgress} {s t : State} (h : Advanced p s t) :
    ∃ u, PhaseEffect p s u ∧ Settles (SameOperation p) u t := by
  have goesOn {ph : Phase} {wk : Work} (u : State) (hp : hasPhase p.op ph = true) (hk : wk.key = p.work.key)
      (ht : wk.target = p.work.target) : Settles (SameOperation p) u (enter p.op ph wk u) :=
    .goesOn ⟨p.op, ph, wk⟩ ⟨rfl, hp, hk, ht⟩
  unfold Advanced at h
  split at h
  case h_1 reg data hi hp => exact h ▸ ⟨_, .write reg data (.inl hp), .answered _ _ _⟩
  case h_2 reg hi hp => exact h ▸ ⟨_, .read reg (.inl hp), .answered _ _ _⟩
  case h_3 reg hi hp => exact h ▸ ⟨_, .read reg (.inr (.inl hp)), .answered _ _ _⟩
  case h_4 reg _ _ _ hi hp =>
    refine ⟨_, .read reg (.inr (.inl hp)), ?_⟩
    obtain ⟨st, data, he⟩ | ⟨w', he, hk, ht⟩ := wrfldRd_cases p.op reg p.work s
    · exact h ▸ he ▸ .answered _ _ _
    · exact h ▸ he ▸ goesOn _ (by rw [hi]; rfl) hk ht
  case h_5 reg mask bits shift hi hp =>
    exact h ▸ ⟨_, .write reg (newByte p.work.old mask bits shift) (.inr (.inr hp)), .answered _ _ _⟩
  case h_6 | h_7 | h_8 => exact h ▸ ⟨s, .keep, goesOn s (by simp_all [hasPhase]) rfl rfl⟩
  case h_9 cw speed angle hi hp =>
    obtain ⟨data, he⟩ | ⟨w', he, hk, ht⟩ := rotR3_cases p.op cw speed p.work s
    · exact h ▸ he ▸ ⟨_, .brake cw speed angle hi hp, .answered _ _ _⟩
    · exact h ▸ he ▸ ⟨_, .drive cw speed angle hi hp, goesOn _ (by rw [hi]; rfl) hk ht⟩
  case h_10 => exact h.elim

end Sys2Proof.Machine

/-! SUPPORT. Who takes a step and what it changes of each part of the state: the surroundings, the registers of the encoder
tracker, the duties, the bus history, the slave cells, the responses and `SEQ`. -/

namespace Sys2Proof.Machine

/-- The agent other than the block that took the step from `s` to `t`, and its move. -/
inductive EventCase (s t : State) : Prop
  | edge (b : Bool) (ag : List Turn) (d : Nat) (hturn : (nextTurn s).1 = .edge b)
      (ht : t = edge b { s with agenda := ag, draws := d })
  | tick (ag : List Turn) (d : Nat) (hturn : (nextTurn s).1 = .tick)
      (ht : t = tickAdvance { s with agenda := ag, draws := d })
  | slave (k : Key) (reg v : Byte) (ag : List Turn) (d : Nat) (hturn : (nextTurn s).1 = .slave k reg v)
      (ht : t = slaveStore k reg v { s with agenda := ag, draws := d })

/-- What a step from `s` to `t` is: an event, or a turn of the block in which the host sends nothing, presents a word, or
the operation in progress advances by one phase (10_state.md R26). -/
inductive StepCase (s t : State) : Prop
  | event (he : EventCase s t)
  | silent (ag : List Turn) (d : Nat) (hturn : (nextTurn s).1 = .block) (hq : s.seq = none) (hc : s.cmds = [])
      (ht : t = { s with agenda := ag, draws := d })
  | present (w : CmdWord) (ws : List CmdWord) (ag : List Turn) (d : Nat) (u : State)
      (hturn : (nextTurn s).1 = .block) (hq : s.seq = none) (hc : s.cmds = w :: ws)
      (he : PresentEffect w { s with agenda := ag, draws := d, cmds := ws } u) (hs : Settles (Checked s.cfg) u t)
  | advance (p : InProgress) (ag : List Turn) (d : Nat) (hturn : (nextTurn s).1 = .block) (hq : s.seq = some p)
      (ha : Advanced p { s with agenda := ag, draws := d } t)

/-- Every step is one of the cases. -/
theorem stepCase {s t : State} (h : step s = .next t) : StepCase s t := by
  obtain ⟨ag, d, ⟨b, hturn, ht⟩ | ⟨hturn, ht⟩ | ⟨k, reg, v, hturn, ht⟩ | ⟨hturn, hblock⟩⟩ := step_cases h
  · exact .event (.edge b ag d hturn ht)
  · exact .event (.tick ag d hturn ht)
  · exact .event (.slave k reg v ag d hturn ht)
  · obtain ⟨p, hq, hx⟩ | ⟨hq, hc, ht⟩ | ⟨w, ws, hq, hc, hx⟩ := hblock
    · exact .advance p ag d hturn hq (exec_busy hq hx)
    · exact .silent ag d hturn hq hc ht
    · obtain ⟨u, he, hs⟩ := present_settles (by exact hq) hx
      exact .present w ws ag d u hturn hq hc he hs

/-- An event writes the tracker's registers, the tick, the slave cells and the inputs only (60_exceptions.md R166). -/
theorem EventCase.frame {s t : State} (h : EventCase s t) : ∃ c tk tm md m ag d,
    t = { s with count := c, tick := tk, tModel := tm, mode := md, mem := m, agenda := ag, draws := d } := by
  cases h with
  | edge b ag d _ ht => exact ⟨_, _, _, _, _, _, _, ht.trans (edge_eq b _)⟩
  | tick ag d _ ht => exact ⟨_, _, _, _, _, _, _, ht⟩
  | slave k reg v ag d _ ht => exact ⟨_, _, _, _, _, _, _, ht.trans (slaveStore_eq k reg v _)⟩

/-- A phase leaves the parameters, the surroundings, the port and the tracker's registers alone. -/
theorem Advanced.frame {p : InProgress} {s t : State} (h : Advanced p s t) : ∃ q rs rest d bh m d0 d1 dh,
    t = { s with seq := q, rsps := rs, replies := rest, draws := d, busHist := bh, mem := m, duty0 := d0, duty1 := d1,
                 dutyHist := dh } := by
  obtain ⟨u, he, hs⟩ := advanced_settles h
  obtain ⟨q, rs, rfl⟩ := hs.frame
  obtain ⟨rest, d, bh, m, d0, d1, dh, rfl⟩ := he.frame
  exact ⟨_, _, _, _, _, _, _, _, _, rfl⟩

/-! ### The parameters and the surroundings -/

/-- No step writes the parameters, the kind of environment or its wiring (10_state.md R18). -/
theorem step_surroundings {s t : State} (h : step s = .next t) : t.cfg = s.cfg ∧ t.env = s.env ∧ t.wired = s.wired := by
  cases stepCase h with
  | event he =>
    obtain ⟨c, tk, tm, md, m, ag, d, rfl⟩ := he.frame
    exact ⟨rfl, rfl, rfl⟩
  | silent ag d _ _ _ ht => exact ht ▸ ⟨rfl, rfl, rfl⟩
  | present w ws ag d u _ _ _ he hs =>
    obtain ⟨q, rs, rfl⟩ := hs.frame
    obtain ⟨c, ts, m, d0, d1, dh, rfl⟩ := he.frame
    exact ⟨rfl, rfl, rfl⟩
  | advance p ag d _ _ ha =>
    obtain ⟨q, rs, rest, d', bh, m, d0, d1, dh, rfl⟩ := ha.frame
    exact ⟨rfl, rfl, rfl⟩

/-! ### The registers of the encoder tracker -/

/-- The registers of the encoder tracker and the tick it reads (10_state.md R12 to R16). -/
structure Tracker where
  count  : Word
  tick   : Word
  tStart : Word
  tModel : Word
  mode   : BitVec 3

/-- The tracker's registers in `s`. -/
def tracker (s : State) : Tracker := ⟨s.count, s.tick, s.tStart, s.tModel, s.mode⟩

/-- What a step does to the tracker's registers. -/
inductive TrackerCase (s t : State) : Prop
  | kept (h : tracker t = tracker s)
  | edge (b : Bool) (hturn : (nextTurn s).1 = .edge b) (h : tracker t = tracker (edge b s))
  | tick (hturn : (nextTurn s).1 = .tick) (h : tracker t = { tracker s with tick := s.tick + 1#32 })
  | encclr (w : CmdWord) (ws : List CmdWord) (hturn : (nextTurn s).1 = .block) (hq : s.seq = none)
      (hc : s.cmds = w :: ws) (hd : decode w = .ok .encclr) (h : tracker t = { tracker s with count := 0#32 })
  | tmark (w : CmdWord) (ws : List CmdWord) (hturn : (nextTurn s).1 = .block) (hq : s.seq = none)
      (hc : s.cmds = w :: ws) (hd : decode w = .ok .tmark) (h : tracker t = { tracker s with tStart := s.tick })
  | modewr (w : CmdWord) (ws : List CmdWord) (m : Byte) (hturn : (nextTurn s).1 = .block) (hq : s.seq = none)
      (hc : s.cmds = w :: ws) (hd : decode w = .ok (.modewr m)) (hm : m.toNat < 6)
      (h : tracker t = { tracker s with mode := modeOf m })

/-- Who writes the tracker's registers, in one statement (10_state.md R12 to R16). -/
theorem step_tracker {s t : State} (h : step s = .next t) : TrackerCase s t := by
  cases stepCase h with
  | event he =>
    cases he with
    | edge b ag d hturn ht => exact .edge b hturn (by rw [ht, edge_eq, edge_eq]; rfl)
    | tick ag d hturn ht => exact .tick hturn (ht ▸ rfl)
    | slave k reg v ag d _ ht => exact .kept (by rw [ht, slaveStore_eq]; rfl)
  | silent ag d _ _ _ ht => exact .kept (ht ▸ rfl)
  | present w ws ag d u hturn hq hc he hs =>
    obtain ⟨q, rs, rfl⟩ := hs.frame
    cases he with
    | keep => exact .kept rfl
    | encclr hd => exact .encclr w ws hturn hq hc hd rfl
    | tmark hd => exact .tmark w ws hturn hq hc hd rfl
    | modewr m hd hm => exact .modewr w ws m hturn hq hc hd hm rfl
    | pwmwr ch v => exact .kept (by cases chanOf ch <;> rfl)
  | advance p ag d _ _ ha =>
    obtain ⟨q, rs, rest, d', bh, m, d0, d1, dh, rfl⟩ := ha.frame
    exact .kept rfl

/-- An edge keeps `MODE` and `T_MODEL`, or records the interval and takes `MODE` from Model to Modeled
(42_encoder_tracker.md R92). -/
theorem edge_mode_cases (b : Bool) (s : State) :
    ((edge b s).mode = s.mode ∧ (edge b s).tModel = s.tModel) ∨
    (s.mode = 2#3 ∧ (edge b s).mode = 3#3 ∧ (edge b s).tModel = s.tick - s.tStart) := by
  rw [edge_eq]
  by_cases h : atRevolution (countAfter s.cfg b s.count) = true ∧ s.mode = modeModel
  · exact .inr ⟨h.2, by simp only [if_pos h]; rfl, by simp only [if_pos h]⟩
  · exact .inl ⟨by simp only [if_neg h], by simp only [if_neg h]⟩

/-- Outside mode Model an edge writes `COUNT` only (42_encoder_tracker.md R92). -/
theorem edge_outside_model (b : Bool) {s : State} (h : s.mode ≠ modeModel) :
    edge b s = { s with count := countAfter s.cfg b s.count } := by
  simp only [edge_eq, h, and_false, if_false]

/-- Who writes `MODE`, and what (10_state.md R16). -/
theorem step_mode {s t : State} (h : step s = .next t) :
    t.mode = s.mode ∨
    ((∃ b, (nextTurn s).1 = .edge b) ∧ s.mode = 2#3 ∧ t.mode = 3#3) ∨
    ((nextTurn s).1 = .block ∧ s.seq = none ∧
      ∃ w ws m, s.cmds = w :: ws ∧ decode w = .ok (.modewr m) ∧ m.toNat < 6 ∧ t.mode = modeOf m) := by
  cases step_tracker h with
  | kept h | tick _ h | encclr _ _ _ _ _ _ h | tmark _ _ _ _ _ _ h => exact .inl (congrArg Tracker.mode h)
  | edge b hturn h =>
    have hmode : t.mode = (edge b s).mode := congrArg Tracker.mode h
    obtain ⟨hkeep, -⟩ | ⟨hmodel, hmodeled, -⟩ := edge_mode_cases b s
    · exact .inl (hmode.trans hkeep)
    · exact .inr (.inl ⟨⟨b, hturn⟩, hmodel, hmode.trans hmodeled⟩)
  | modewr w ws m hturn hq hc hd hm h => exact .inr (.inr ⟨hturn, hq, w, ws, m, hc, hd, hm, congrArg Tracker.mode h⟩)

/-! ### The slave cells, the responses, the bus history -/

/-- A step changes at most one cell, and only a wired slave's (20_memory.md R34, R38). -/
theorem step_mem {s t : State} (h : step s = .next t) :
    t.mem = s.mem ∨ ∃ k reg v, k ∈ s.wired ∧ t.mem = Memory.write s.mem (cellAddr k reg) v := by
  cases stepCase h with
  | event he =>
    cases he with
    | edge b ag d _ ht => exact .inl (by rw [ht, edge_eq])
    | tick ag d _ ht => exact .inl (by rw [ht, tickAdvance_mem])
    | slave k reg v ag d _ ht =>
      rw [ht, slaveStore_eq]
      split
      case isTrue ha => exact .inr ⟨k, reg, v, ((answersAt_iff _ k).1 ha).2, rfl⟩
      case isFalse => exact .inl rfl
  | silent ag d _ _ _ ht => exact .inl (ht ▸ rfl)
  | present w ws ag d u _ _ _ he hs =>
    obtain ⟨q, rs, rfl⟩ := hs.frame
    obtain ⟨c, ts, m, d0, d1, dh, rfl⟩ := he.frame
    exact .inl rfl
  | advance p ag d _ _ ha =>
    obtain ⟨u, he, hs⟩ := advanced_settles ha
    obtain ⟨q, rs, rfl⟩ := hs.frame
    cases he with
    | keep => exact .inl rfl
    | read reg =>
      obtain ⟨rest, d', byte, f, hu⟩ := memRead_state p.work.key reg { s with agenda := ag, draws := d }
      exact .inl (by rw [hu])
    | write reg v =>
      obtain ⟨rest, d', f, m, hu, hm⟩ := memWrite_state p.work.key reg v { s with agenda := ag, draws := d }
      rw [hu]
      exact hm.imp_right fun ⟨hk, hm⟩ => ⟨_, _, _, hk, hm⟩
    | drive cw speed => exact .inl (by rw [drive_eq])
    | brake => exact .inl rfl

/-- A step gives no response or one, at the end (30_encoding.md R53). -/
theorem step_rsps {s t : State} (h : step s = .next t) :
    t.rsps = s.rsps ∨ ∃ op st data, t.rsps = s.rsps ++ [responseWord op st data] := by
  cases stepCase h with
  | event he =>
    obtain ⟨c, tk, tm, md, m, ag, d, rfl⟩ := he.frame
    exact .inl rfl
  | silent ag d _ _ _ ht => exact .inl (ht ▸ rfl)
  | present w ws ag d u _ _ _ he hs =>
    obtain ⟨c, ts, m, d0, d1, dh, rfl⟩ := he.frame
    exact hs.rsps
  | advance p ag d _ _ ha =>
    obtain ⟨u, he, hs⟩ := advanced_settles ha
    obtain ⟨rest, d', bh, m, d0, d1, dh, rfl⟩ := he.frame
    exact hs.rsps

/-- A step makes no transaction or one, for the operation in progress and with its latched key (20_memory.md R39). -/
theorem step_busHist {s t : State} (h : step s = .next t) :
    t.busHist = s.busHist ∨
    ∃ p x, s.seq = some p ∧ (p.ph = .bus ∨ p.ph = .rd ∨ p.ph = .wr) ∧ x.key = p.work.key ∧
      t.busHist = s.busHist ++ [x] := by
  cases stepCase h with
  | event he =>
    obtain ⟨c, tk, tm, md, m, ag, d, rfl⟩ := he.frame
    exact .inl rfl
  | silent ag d _ _ _ ht => exact .inl (ht ▸ rfl)
  | present w ws ag d u _ _ _ he hs =>
    obtain ⟨q, rs, rfl⟩ := hs.frame
    obtain ⟨c, ts, m, d0, d1, dh, rfl⟩ := he.frame
    exact .inl rfl
  | advance p ag d _ hq ha =>
    obtain ⟨u, he, hs⟩ := advanced_settles ha
    obtain ⟨q, rs, rfl⟩ := hs.frame
    cases he with
    | keep => exact .inl rfl
    | read reg hp =>
      obtain ⟨rest, d', byte, f, hu⟩ := memRead_state p.work.key reg { s with agenda := ag, draws := d }
      exact .inr ⟨p, .read p.work.key reg byte f, hq, hp, rfl, by rw [hu]⟩
    | write reg v hp =>
      obtain ⟨rest, d', f, m, hu, -⟩ := memWrite_state p.work.key reg v { s with agenda := ag, draws := d }
      exact .inr ⟨p, .write p.work.key reg v f, hq, hp, rfl, by rw [hu]⟩
    | drive cw speed => exact .inl (by rw [drive_eq])
    | brake => exact .inl rfl

/-! ### `SEQ` -/

/-- The operation in progress after a step was in progress before it, in the same phase or another, or was begun by the
step with its checks passed (10_state.md R11). -/
theorem step_seq {s t : State} {q : InProgress} (h : step s = .next t) (hq : t.seq = some q) :
    s.seq = some q ∨ (∃ p, s.seq = some p ∧ SameOperation p q) ∨ (s.seq = none ∧ Checked s.cfg q) := by
  cases stepCase h with
  | event he =>
    obtain ⟨c, tk, tm, md, m, ag, d, rfl⟩ := he.frame
    exact .inl hq
  | silent ag d _ _ _ ht => exact .inl (by rwa [ht] at hq)
  | present w ws ag d u _ hidle _ _ hs => exact .inr (.inr ⟨hidle, hs.seq hq⟩)
  | advance p ag d _ hbusy ha =>
    obtain ⟨u, -, hs⟩ := advanced_settles ha
    exact .inr (.inl ⟨p, hbusy, hs.seq hq⟩)

/-! ### The duties -/

/-- A phase other than ROT's R3 leaves the duties alone. -/
theorem advanced_duties {p : InProgress} {s t : State} (h : Advanced p s t) :
    (t.duty0 = s.duty0 ∧ t.duty1 = s.duty1) ∨
    ∃ cw speed angle, p.op = .rot cw speed angle ∧ p.ph = .r3 ∧ t = rotR3 p.op cw speed p.work s := by
  obtain ⟨u, he, hs⟩ := advanced_settles h
  cases he with
  | keep =>
    obtain ⟨q, rs, rfl⟩ := hs.frame
    exact .inl ⟨rfl, rfl⟩
  | read reg =>
    obtain ⟨rest, d, byte, f, hu⟩ := memRead_state p.work.key reg s
    obtain ⟨q, rs, rfl⟩ := hs.frame
    exact .inl ⟨by rw [hu], by rw [hu]⟩
  | write reg v =>
    obtain ⟨rest, d, f, m, hu, -⟩ := memWrite_state p.work.key reg v s
    obtain ⟨q, rs, rfl⟩ := hs.frame
    exact .inl ⟨by rw [hu], by rw [hu]⟩
  | drive cw speed angle hi hp | brake cw speed angle hi hp =>
    exact .inr ⟨cw, speed, angle, hi, hp, by simpa only [Advanced, hi, hp] using h⟩

/-- A checked channel operand is 0 or 1 (30_encoding.md R55). -/
theorem channel_cases {ch : Byte} (h : ch.toNat < 2) : ch = 0#8 ∨ ch = 1#8 := by
  obtain h | h : ch.toNat = 0 ∨ ch.toNat = 1 := by omega
  · exact .inl (BitVec.eq_of_toNat_eq h)
  · exact .inr (BitVec.eq_of_toNat_eq h)

/-! ### Response words -/

/-- A response word by its numbers, as a number (30_encoding.md R53). -/
theorem toNat_rspOf (op st : Byte) (data : Word) :
    (rspOf op st data).toNat = op.toNat * 2 ^ 56 + st.toNat * 2 ^ 48 + data.toNat := by
  simp only [rspOf, toNat_concat, BitVec.toNat_ofNat]
  omega

/-- A response with a defined status, and data 0 unless it is `OK`, is legal (30_encoding.md R53). -/
theorem responseLegal_rspOf {op st : Byte} {data : Word} (hst : st.toNat ≤ 5) (hdata : st = 0#8 ∨ data = 0#32) :
    responseLegal (rspOf op st data) = true := by
  have hop := op.isLt
  have hd := data.isLt
  have hw := toNat_rspOf op st data
  have hstatus : (rspOf op st data).extractLsb' 48 8 = st :=
    BitVec.eq_of_toNat_eq (by rw [toNat_field]; omega)
  have hzero : (rspOf op st data).extractLsb' 32 16 = 0#16 :=
    BitVec.eq_of_toNat_eq (by rw [toNat_field, BitVec.toNat_ofNat]; omega)
  have hlow : (rspOf op st data).extractLsb' 0 32 = data :=
    BitVec.eq_of_toNat_eq (by rw [toNat_field]; omega)
  simpa [responseLegal, hstatus, hzero, hlow, BitVec.le_def, hst] using hdata

/-- Every response word the block forms is legal. -/
theorem responseLegal_responseWord (op : Byte) (st : Status) (data : Word) :
    responseLegal (responseWord op st data) = true := by
  have hword : responseWord op st data = rspOf op st.code (if st = .ok then data else 0#32) := rfl
  rw [hword]
  exact responseLegal_rspOf (by cases st <;> decide) (by cases st <;> simp [Status.code])

end Sys2Proof.Machine

/-! SUPPORT. The statements of 10_state.md, from what a step changes of each part of the state. -/

namespace Sys2Proof.Machine

/-- A checked operation in a transaction phase has latched the key of a port that exists (10_state.md R18). -/
theorem Checked.bus_lt {c : Params} {p : InProgress} (h : Checked c p) (hc : c.legal = true)
    (hp : p.ph = .bus ∨ p.ph = .rd ∨ p.ph = .wr) : p.work.key.bus.toNat < c.nbus := by
  obtain ⟨i, ph, w⟩ := p
  obtain ⟨hw, hph, hl⟩ := h
  cases i with
  | bwr bus addr | brd bus addr =>
    simp only [latched] at hl
    simp only [Instr.WellFormed, Bool.and_eq_true, decide_eq_true_eq] at hw
    exact hl ▸ hw.1
  | rdreg | wrfld => exact lookup_bus hc hl
  | rot => rcases hp with rfl | rfl | rfl <;> cases hph
  | encrd | encclr | tmark | tmrd | moderd | modewr | pwmwr => cases hph

/-! ### The parts of the invariant -/

/-- An operation in progress stays checked, as its parameters and what it latched stay. -/
theorem step_seqLegal {s t : State} (hi : SeqLegal s) (h : step s = .next t) : SeqLegal t := by
  obtain ⟨hcfg, -, -⟩ := step_surroundings h
  intro q hq
  rw [hcfg]
  obtain hsame | ⟨p, hp, hsame⟩ | ⟨-, hchecked⟩ := step_seq h hq
  · exact hi q hsame
  · exact hsame.checked (hi p hp)
  · exact hchecked

/-- Every writer of `MODE` writes one of the six modes (10_state.md R16). -/
theorem step_modeLegal {s t : State} (hi : ModeLegal s) (h : step s = .next t) : ModeLegal t := by
  unfold ModeLegal at *
  obtain hmode | ⟨-, -, hmode⟩ | ⟨-, -, -, -, m, -, -, hm, hmode⟩ := step_mode h <;> rw [hmode]
  · exact hi
  · decide
  · rw [modeOf, BitVec.toNat_setWidth]
    omega

/-- The wiring and `NBUS` stay. -/
theorem step_wiringLegal {s t : State} (hi : WiringLegal s) (h : step s = .next t) : WiringLegal t := by
  obtain ⟨hcfg, -, hwired⟩ := step_surroundings h
  rwa [WiringLegal, hcfg, hwired]

/-- A step keeps the canonical form, as a write does. -/
theorem step_memCanonical {s t : State} (hi : s.mem.wf = true) (h : step s = .next t) : t.mem.wf = true := by
  obtain hmem | ⟨k, reg, v, -, hmem⟩ := step_mem h <;> rw [hmem]
  · exact hi
  · exact Memory.wf_write _ v hi

/-- A step writes no cell but a wired slave's (20_memory.md R31). -/
theorem step_cellsWired {s t : State} (hi : CellsWired s) (h : step s = .next t) : CellsWired t := by
  obtain ⟨-, -, hwired⟩ := step_surroundings h
  intro c hc
  rw [hwired]
  obtain hmem | ⟨k, reg, v, hk, hmem⟩ := step_mem h <;> rw [hmem] at hc
  · exact hi c hc
  · obtain rfl | hc := Memory.mem_write hc
    · exact ⟨k, hk, reg, rfl⟩
    · exact hi c hc

/-- A response a step adds is legal (30_encoding.md R53). -/
theorem step_responsesLegal {s t : State} (hi : ResponsesLegal s) (h : step s = .next t) : ResponsesLegal t := by
  intro r hr
  obtain hrsps | ⟨op, st, data, hrsps⟩ := step_rsps h <;> rw [hrsps] at hr
  · exact hi r hr
  · obtain hr | hr := List.mem_append.1 hr
    · exact hi r hr
    · rw [List.mem_singleton.1 hr]
      exact responseLegal_responseWord op st data

/-- Settles O45: each part of the invariant is kept by what a step can change of it. -/
theorem everyStepKeepsTheInvariant : Obligations.EveryStepKeepsTheInvariant := by
  intro s t hi h
  obtain ⟨hcfg, -, -⟩ := step_surroundings h
  exact
    { paramsLegal := hcfg ▸ hi.paramsLegal
      wiringLegal := step_wiringLegal hi.wiringLegal h
      seqLegal := step_seqLegal hi.seqLegal h
      modeLegal := step_modeLegal hi.modeLegal h
      memCanonical := step_memCanonical hi.memCanonical h
      cellsWired := step_cellsWired hi.cellsWired h
      responsesLegal := step_responsesLegal hi.responsesLegal h }

/-- Settles O46: the lists of the reset state are empty, and its parameters are legal by `reset_legal`. -/
theorem resetMeetsTheInvariant : Obligations.ResetMeetsTheInvariant where
  paramsLegal := reset_legal
  wiringLegal _ hk := nomatch hk
  seqLegal _ hp := nomatch hp
  modeLegal := by show (0#3).toNat ≤ 5; decide
  memCanonical := rfl
  cellsWired _ hc := nomatch hc
  responsesLegal _ hr := nomatch hr

/-! ### Events, the port and the parameters -/

/-- Settles O36, by what an event writes. -/
theorem eventsLeaveTheSequencer : Obligations.EventsLeaveTheSequencer := by
  intro s t hturn h
  cases stepCase h with
  | event he =>
    obtain ⟨c, tk, tm, md, m, ag, d, rfl⟩ := he.frame
    exact ⟨rfl, rfl, rfl, rfl, rfl, rfl, rfl, rfl, rfl, rfl⟩
  | silent _ _ hblock | present _ _ _ _ _ hblock | advance _ _ _ hblock => exact absurd hblock hturn

/-- Settles O43: a step with an operation in progress is an event or a phase of it, and neither takes a word. -/
theorem busyPortAcceptsNothing : Obligations.BusyPortAcceptsNothing := by
  intro s t p hp h
  constructor
  · cases stepCase h with
    | event he =>
      obtain ⟨c, tk, tm, md, m, ag, d, rfl⟩ := he.frame
      rfl
    | silent _ _ _ hidle | present _ _ _ _ _ _ hidle => simp [hp] at hidle
    | advance p ag d _ _ ha =>
      obtain ⟨q, rs, rest, d', bh, m, d0, d1, dh, rfl⟩ := ha.frame
      rfl
  · intro q hq
    obtain hsame | ⟨p', hp', hop, -⟩ | ⟨hidle, -⟩ := step_seq h hq
    · rw [Option.some.inj (hsame.symm.trans hp)]
    · rw [hop, Option.some.inj (hp'.symm.trans hp)]
    · simp [hp] at hidle

/-- Settles O52, by what each agent's move leaves unchanged. -/
theorem parametersNeverChange : Obligations.ParametersNeverChange :=
  fun _ _ h => step_surroundings h

/-! ### Who writes the registers of the encoder tracker -/

/-- Settles O48, by the writers of the tracker's registers. -/
theorem countWriters : Obligations.CountWriters := by
  intro s t h hne
  cases step_tracker h with
  | edge b hturn => exact .inl ⟨b, hturn⟩
  | encclr w ws hturn hq hc hd h => exact .inr ⟨hturn, hq, w, ws, hc, hd, congrArg Tracker.count h⟩
  | kept h | tick _ h | tmark _ _ _ _ _ _ h | modewr _ _ _ _ _ _ _ _ h => exact absurd (congrArg Tracker.count h) hne

/-- The part of O49 on `TICK` (10_state.md R13). -/
theorem step_tick {s t : State} (h : step s = .next t) (hne : t.tick ≠ s.tick) :
    (nextTurn s).1 = .tick ∧ t.tick = s.tick + 1#32 := by
  cases step_tracker h with
  | tick hturn h => exact ⟨hturn, congrArg Tracker.tick h⟩
  | edge b _ h =>
    have hedge : t.tick = (edge b s).tick := congrArg Tracker.tick h
    exact absurd (by rw [hedge, edge_eq]) hne
  | kept h | encclr _ _ _ _ _ _ h | tmark _ _ _ _ _ _ h | modewr _ _ _ _ _ _ _ _ h =>
    exact absurd (congrArg Tracker.tick h) hne

/-- The part of O49 on `T_START` (10_state.md R14). -/
theorem step_tStart {s t : State} (h : step s = .next t) (hne : t.tStart ≠ s.tStart) :
    (nextTurn s).1 = .block ∧ s.seq = none ∧
      ∃ w ws, s.cmds = w :: ws ∧ decode w = .ok .tmark ∧ t.tStart = s.tick := by
  cases step_tracker h with
  | tmark w ws hturn hq hc hd h => exact ⟨hturn, hq, w, ws, hc, hd, congrArg Tracker.tStart h⟩
  | edge b _ h =>
    have hedge : t.tStart = (edge b s).tStart := congrArg Tracker.tStart h
    exact absurd (by rw [hedge, edge_eq]) hne
  | kept h | tick _ h | encclr _ _ _ _ _ _ h | modewr _ _ _ _ _ _ _ _ h =>
    exact absurd (congrArg Tracker.tStart h) hne

/-- The part of O49 on `T_MODEL` (10_state.md R15). -/
theorem step_tModel {s t : State} (h : step s = .next t) (hne : t.tModel ≠ s.tModel) :
    (∃ b, (nextTurn s).1 = .edge b) ∧ s.mode = 2#3 ∧ t.mode = 3#3 ∧ t.tModel = s.tick - s.tStart := by
  cases step_tracker h with
  | edge b hturn h =>
    have hmode : t.mode = (edge b s).mode := congrArg Tracker.mode h
    have htModel : t.tModel = (edge b s).tModel := congrArg Tracker.tModel h
    obtain ⟨-, hkeep⟩ | ⟨hmodel, hmodeled, hinterval⟩ := edge_mode_cases b s
    · exact absurd (htModel.trans hkeep) hne
    · exact ⟨⟨b, hturn⟩, hmodel, hmode.trans hmodeled, htModel.trans hinterval⟩
  | kept h | tick _ h | encclr _ _ _ _ _ _ h | tmark _ _ _ _ _ _ h | modewr _ _ _ _ _ _ _ _ h =>
    exact absurd (congrArg Tracker.tModel h) hne

/-- Settles O49, register by register. -/
theorem timeRegisterWriters : Obligations.TimeRegisterWriters :=
  fun _ _ h => ⟨step_tick h, step_tStart h, step_tModel h⟩

/-- Settles O50: `modeOf` reads the operand's low three bits. -/
theorem modeWriters : Obligations.ModeWriters := by
  intro s t h hne
  obtain hkeep | hedge | ⟨hturn, hq, w, ws, m, hc, hd, hm, hmode⟩ := step_mode h
  · exact absurd hkeep hne
  · exact .inl hedge
  · have hlow : modeOf m = m.extractLsb' 0 3 := rfl
    exact .inr ⟨hturn, hq, w, ws, m, hc, hd, hm, hmode.trans hlow⟩

/-! ### Who writes the duties -/

/-- Phase R3 of ROT writes both duties and emits both events (43_rotation_controller.md R117, R118). -/
theorem rotR3_duties {i : Instr} {cw speed : Byte} {w : Work} {s t : State} (h : t = rotR3 i cw speed w s) :
    t.dutyHist = s.dutyHist ++ [⟨.ch0, t.duty0⟩, ⟨.ch1, t.duty1⟩] ∧
    ((t.seq = none ∧ t.duty0 = 255#8 ∧ t.duty1 = 255#8) ∨
     (t.seq ≠ none ∧ t.duty0 = (if cw = 1#8 then speed else 0#8) ∧ t.duty1 = (if cw = 1#8 then 0#8 else speed))) := by
  obtain ⟨data, he⟩ | ⟨w', he, -⟩ := rotR3_cases i cw speed w s
  · simp [h, he]
  · rw [h, he, drive_eq]
    by_cases hcw : cw = 1#8 <;> simp [hcw]

/-- PWMWR writes the duty of the channel it names and emits its event (43_rotation_controller.md R111). -/
theorem setDuty_duties {ch : Byte} (hch : ch.toNat < 2) (d : Byte) (s : State) :
    let u := setDuty (chanOf ch) d s
    (ch = 0#8 ∧ u.duty0 = d ∧ u.duty1 = s.duty1 ∧ u.dutyHist = s.dutyHist ++ [⟨.ch0, u.duty0⟩]) ∨
    (ch = 1#8 ∧ u.duty1 = d ∧ u.duty0 = s.duty0 ∧ u.dutyHist = s.dutyHist ++ [⟨.ch1, u.duty1⟩]) := by
  obtain rfl | rfl := channel_cases hch
  · exact .inl ⟨rfl, rfl, rfl, rfl⟩
  · exact .inr ⟨rfl, rfl, rfl, rfl⟩

/-- Settles O51: of the operations only PWMWR writes a duty, and of the phases only ROT's R3. -/
theorem dutyWriters : Obligations.DutyWriters := by
  intro s t h hne
  have notKept (h0 : t.duty0 = s.duty0) (h1 : t.duty1 = s.duty1) : False := hne.elim (· h0) (· h1)
  cases stepCase h with
  | event he =>
    obtain ⟨c, tk, tm, md, m, ag, d, rfl⟩ := he.frame
    exact (notKept rfl rfl).elim
  | silent ag d _ _ _ ht => exact (notKept (by rw [ht]) (by rw [ht])).elim
  | present w ws ag d u hturn hq hc he hs =>
    obtain ⟨q, rs, rfl⟩ := hs.frame
    cases he with
    | pwmwr ch v hd hch =>
      have hset := setDuty_duties hch v { s with agenda := ag, draws := d, cmds := ws }
      exact ⟨hturn, .inl ⟨hq, w, ws, ch, v, hc, hd, hset⟩⟩
    | keep | encclr | tmark | modewr => exact (notKept rfl rfl).elim
  | advance p ag d hturn hq ha =>
    obtain ⟨h0, h1⟩ | ⟨cw, speed, angle, hi, hp, ht⟩ := advanced_duties ha
    · exact (notKept h0 h1).elim
    · have hrot : s.seq = some ⟨.rot cw speed angle, .r3, p.work⟩ := by rw [hq, ← hi, ← hp]
      have hboth := rotR3_duties ht
      exact ⟨hturn, .inr ⟨cw, speed, angle, p.work, hrot, hboth⟩⟩

/-! ### Transactions -/

/-- Settles O56: the one transaction a step can make is with the key that a checked operation latched. -/
theorem transactionsReachExistingPorts : Obligations.TransactionsReachExistingPorts := by
  intro s t x hi h hx
  obtain ⟨-, hmost, -⟩ := (params_legal_iff s.cfg).1 hi.paramsLegal
  refine ⟨?_, hmost⟩
  obtain hnone | ⟨p, y, hq, hp, hkey, hy⟩ := step_busHist h
  · simp [hx] at hnone
  · obtain rfl : x = y := by simpa [hx] using hy
    rw [hkey]
    exact Checked.bus_lt (hi.seqLegal p hq) hi.paramsLegal hp

/-! ### The block's turn, and the first step after reset -/

/-- A word that decodes is presented as its operation. -/
theorem step_present {s : State} {rest : List Turn} {w : CmdWord} {ws : List CmdWord} {i : Instr}
    (ha : s.agenda = .block :: rest) (hq : s.seq = none) (hc : s.cmds = w :: ws) (hd : decode w = .ok i) :
    step s = exec i { s with agenda := rest, cmds := ws } := by
  rw [step_block ha, blockMove_idle (by exact hq) (by exact hc), present, hd]

/-- Settles O5, by the three branches of the block's move. -/
theorem stepRunsTheDecodedInstruction : Obligations.StepRunsTheDecodedInstruction := by
  intro s rest ha
  refine ⟨fun w ws i hq hc hd => step_present ha hq hc hd, fun p hq => ?_, fun hq hc => ?_⟩
  · exact (step_block ha).trans (blockMove_busy (by exact hq))
  · rw [step_block ha, blockMove, hq, hc]

/-- The first step of a state whose next word is a given one that decodes. -/
theorem step_withFetchWord {s : State} {w : Nat} {i : Instr} (hd : decode (BitVec.ofNat 64 (w % 2 ^ 64)) = .ok i) :
    step (s.withFetchWord 64 w) = exec i { s with seq := none } :=
  step_present rfl rfl rfl hd

/-- Settles O54: ENCRD and MODERD answer the zeros of the reset state, and the first edge counts from 0, which takes
`COUNT` to no revolution tick. -/
theorem resetIsIdleWithCountAndModeZero : Obligations.ResetIsIdleWithCountAndModeZero := by
  refine ⟨⟨_, step_withFetchWord (i := .encrd) (by decide), by decide⟩,
    ⟨_, step_withFetchWord (i := .moderd) (by decide), by decide⟩, fun b rest => ?_⟩
  have hs : step { State.reset with agenda := .edge b :: rest } =
      .next (edge b { State.reset with agenda := rest }) := rfl
  have hmode : State.reset.mode ≠ modeModel := by decide
  rw [edge_outside_model b (by exact hmode)] at hs
  refine ⟨_, hs, rfl, rfl, ?_⟩
  show (if b = false then 0#32 + 1#32 else 0#32 - 1#32) = _
  cases b <;> decide

end Sys2Proof.Machine

/-! SUPPORT. The slave register space as a memory: what a transaction does on the test bench at a wired key, and which
moves of a step can write a cell. -/

namespace Sys2Proof.Machine

/-! ### Transactions on the test bench -/

section
variable {s : State} {k : Key} (he : s.env = .bench) (hr : s.replies = []) (hk : k ∈ s.wired)
include he hr hk

/-- With no fixed answer a simulator slave completes every transaction with the byte its cell holds (20_memory.md R34). -/
theorem answeredBy_bench (reg : Byte) :
    AnsweredBy s k reg (.done (cellByte s.mem (cellAddr k reg))) [] s.draws :=
  .inr (.inl ⟨hr, rfl, he, rfl, by rw [if_pos hk]⟩)

/-- A write transaction to a simulator slave succeeds and writes the cell (20_memory.md R34, 40_bus_master.md R71). -/
theorem memWrite_bench (reg v : Byte) :
    memWrite k reg v s =
      (true, { s with busHist := s.busHist ++ [.write k reg v none],
                      mem := Memory.write s.mem (cellAddr k reg) v }) := by
  have hcell : cellsAfter s k reg v (.done (cellByte s.mem (cellAddr k reg))) =
      Memory.write s.mem (cellAddr k reg) v := if_pos ⟨rfl, he, hk⟩
  rw [memWrite_eq v (answeredBy_bench he hr hk reg), hcell, ← hr]
  rfl

/-- A read transaction from a simulator slave succeeds with the cell's byte (20_memory.md R34, 40_bus_master.md R72). -/
theorem memRead_bench (reg : Byte) :
    memRead k reg s =
      ((true, cellByte s.mem (cellAddr k reg)),
       { s with busHist := s.busHist ++ [.read k reg (cellByte s.mem (cellAddr k reg)) none] }) := by
  rw [memRead_eq (answeredBy_bench he hr hk reg), ← hr]
  rfl

end

/-- A cell just written holds the byte written. -/
theorem cellByte_write_same (m : Memory) (a : Nat) (v : Byte) : cellByte (Memory.write m a v) a = v := by
  rw [cellByte, Memory.read_write_same, Option.getD_some]

/-- A write transaction leaves every cell but the addressed one alone, in either environment and whatever its answer. -/
theorem memWrite_read_other {k : Key} {reg : Byte} {a : Nat} (h : a ≠ cellAddr k reg) (v : Byte) (s : State) :
    Memory.read (memWrite k reg v s).2.mem a = Memory.read s.mem a := by
  obtain ⟨rest, d, f, m, hs, hm | ⟨-, hm⟩⟩ := memWrite_state k reg v s <;> rw [hs, hm]
  exact Memory.read_write_other s.mem v h

/-! ### Who writes a cell -/

/-- Of the events only the slave's own change writes a cell, and only a wired slave's (20_memory.md R38). -/
theorem EventCase.mem {s t : State} (h : EventCase s t) :
    t.mem = s.mem ∨ ∃ k reg v, (nextTurn s).1 = .slave k reg v ∧ k ∈ s.wired ∧
      t.mem = Memory.write s.mem (cellAddr k reg) v := by
  cases h with
  | edge b ag d _ ht => exact .inl (by rw [ht, edge_eq])
  | tick ag d _ ht => exact .inl (by rw [ht, tickAdvance_mem])
  | slave k reg v ag d hturn ht =>
    rw [ht, slaveStore_eq]
    split
    case isTrue ha => exact .inr ⟨k, reg, v, hturn, ((answersAt_iff _ k).1 ha).2, rfl⟩
    case isFalse => exact .inl rfl

/-- A phase writes a cell only by the write transaction it appends to the bus history (20_memory.md R34). -/
theorem PhaseEffect.mem {p : InProgress} {s u : State} (h : PhaseEffect p s u) :
    u.mem = s.mem ∨ ∃ k reg v f, k ∈ s.wired ∧ u.busHist = s.busHist ++ [.write k reg v f] ∧
      u.mem = Memory.write s.mem (cellAddr k reg) v := by
  cases h with
  | keep => exact .inl rfl
  | read reg =>
    obtain ⟨rest, d, byte, f, hu⟩ := memRead_state p.work.key reg s
    exact .inl (by rw [hu])
  | write reg v =>
    obtain ⟨rest, d, f, m, hu, hm⟩ := memWrite_state p.work.key reg v s
    rw [hu]
    exact hm.imp_right fun ⟨hk, hm⟩ => ⟨_, _, _, f, hk, rfl, hm⟩
  | drive cw speed => exact .inl (by rw [drive_eq])
  | brake => exact .inl (by rw [brake_eq])

end Sys2Proof.Machine

/-! SUPPORT. BWR, BRD and WRFLD run from a state: the word, the step that accepts it, and each of its phases. -/

namespace Sys2Proof.Machine

/-! ### The words of BWR and BRD -/

/-- A byte field is the byte that the word, as a number, has there. -/
theorem fieldByte_eq_of_toNat {w : CmdWord} {lo : Nat} {b : Byte} (h : w.toNat / 2 ^ lo % 256 = b.toNat) :
    fieldByte w lo = b :=
  BitVec.eq_of_toNat_eq ((toNat_fieldByte w lo).trans h)

/-- The word of BWR decodes to it (30_encoding.md R51, R54). -/
theorem decode_encode_bwr (bus addr reg data : Byte) :
    decode (encode (.bwr bus addr reg data)) = .ok (.bwr bus addr reg data) := by
  have hw := encode_bwr_toNat bus addr reg data
  have hop : (Opcode.byte .bwr).toNat = 0x10 := rfl
  rw [decode_eq (o := .bwr) (fieldByte_eq_of_toNat (by omega)), decodeFields, whenZero_ok, lowZero_iff,
    fieldByte_eq_of_toNat (lo := 48) (b := bus) (by omega), fieldByte_eq_of_toNat (lo := 40) (b := addr) (by omega),
    fieldByte_eq_of_toNat (lo := 32) (b := reg) (by omega), fieldByte_eq_of_toNat (lo := 24) (b := data) (by omega)]
  exact ⟨by omega, rfl⟩

/-- The word of BRD decodes to it (30_encoding.md R51, R54). -/
theorem decode_encode_brd (bus addr reg : Byte) : decode (encode (.brd bus addr reg)) = .ok (.brd bus addr reg) := by
  have hw := encode_brd_toNat bus addr reg
  have hop : (Opcode.byte .brd).toNat = 0x11 := rfl
  rw [decode_eq (o := .brd) (fieldByte_eq_of_toNat (by omega)), decodeFields, whenZero_ok, lowZero_iff,
    fieldByte_eq_of_toNat (lo := 48) (b := bus) (by omega), fieldByte_eq_of_toNat (lo := 40) (b := addr) (by omega),
    fieldByte_eq_of_toNat (lo := 32) (b := reg) (by omega)]
  exact ⟨by omega, rfl⟩

/-! ### Acceptance and phases -/

/-- BWR with legal operands is accepted by an idle sequencer and waits for its transaction (40_bus_master.md R71). -/
theorem exec_bwr_idle {s : State} {bus addr : Byte} (hq : s.seq = none) (hbus : bus.toNat < s.cfg.nbus)
    (haddr : addr.toNat < 0x80) (reg data : Byte) :
    exec (.bwr bus addr reg data) s =
      .next (enter (.bwr bus addr reg data) .bus { Work.fresh with key := rawKey bus addr } s) := by
  simp [exec, execBwr, phased, hq, accept, Instr.WellFormed, hbus, haddr]

/-- BRD with legal operands is accepted by an idle sequencer and waits for its transaction (40_bus_master.md R72). -/
theorem exec_brd_idle {s : State} {bus addr : Byte} (hq : s.seq = none) (hbus : bus.toNat < s.cfg.nbus)
    (haddr : addr.toNat < 0x80) (reg : Byte) :
    exec (.brd bus addr reg) s =
      .next (enter (.brd bus addr reg) .bus { Work.fresh with key := rawKey bus addr } s) := by
  simp [exec, execBrd, phased, hq, accept, Instr.WellFormed, hbus, haddr]

/-- Phase BUS of BWR (40_bus_master.md R71). -/
theorem exec_bwr_bus {s : State} {bus addr reg data : Byte} {w : Work}
    (hq : s.seq = some ⟨.bwr bus addr reg data, .bus, w⟩) :
    exec (.bwr bus addr reg data) s = .next (bwrBus (.bwr bus addr reg data) reg data w s) := by
  simp [exec, execBwr, phased, hq]

/-- Phase BUS of BRD (40_bus_master.md R72). -/
theorem exec_brd_bus {s : State} {bus addr reg : Byte} {w : Work} (hq : s.seq = some ⟨.brd bus addr reg, .bus, w⟩) :
    exec (.brd bus addr reg) s = .next (readAndRespond (.brd bus addr reg) reg w s) := by
  simp [exec, execBrd, phased, hq]

/-- Phase RD of WRFLD (41_register_codec.md R82). -/
theorem exec_wrfld_rd {s : State} {dev reg mask bits shift : Byte} {w : Work}
    (hq : s.seq = some ⟨.wrfld dev reg mask bits shift, .rd, w⟩) :
    exec (.wrfld dev reg mask bits shift) s = .next (wrfldRd (.wrfld dev reg mask bits shift) reg w s) := by
  simp [exec, execWrfld, phased, hq]

/-- Phase WR of WRFLD (41_register_codec.md R82). -/
theorem exec_wrfld_wr {s : State} {dev reg mask bits shift : Byte} {w : Work}
    (hq : s.seq = some ⟨.wrfld dev reg mask bits shift, .wr, w⟩) :
    exec (.wrfld dev reg mask bits shift) s =
      .next (wrfldWr (.wrfld dev reg mask bits shift) reg mask bits shift w s) := by
  simp [exec, execWrfld, phased, hq]

/-- The 32-bit data of a response that carries a byte (40_bus_master.md R72). -/
theorem zeros_append_byte (b : Byte) : 0#24 ++ b = b.setWidth 32 := by
  have hb := b.isLt
  apply BitVec.eq_of_toNat_eq
  rw [toNat_concat, BitVec.toNat_setWidth, BitVec.toNat_ofNat]
  omega

/-! ### Steps and runs -/

/-- A run goes on from the state its first step gives. -/
theorem runs_succ {s t : State} (h : step s = .next t) (n : Nat) : runs (n + 1) s = runs n t := by
  simp only [runs, h]

/-- A fixed block turn with an operation in progress advances it (10_state.md R26). -/
theorem step_busy {s : State} {rest : List Turn} {p : InProgress} (ha : s.agenda = .block :: rest)
    (hq : s.seq = some p) : step s = exec p.op { s with agenda := rest } :=
  (step_block ha).trans (blockMove_busy hq)

/-- A fixed turn of a slave is its own change (20_memory.md R38). -/
theorem step_slave {s : State} {rest : List Turn} {k : Key} {reg v : Byte} (ha : s.agenda = .slave k reg v :: rest) :
    step s = .next (slaveStore k reg v { s with agenda := rest }) := by
  rw [step, nextTurn_cons ha, takeTurn]

/-- On the test bench with no turn fixed, a word that decodes is presented as its operation. -/
theorem step_bench_present {s : State} {w : CmdWord} {ws : List CmdWord} {i : Instr} (he : s.env = .bench)
    (ha : s.agenda = []) (hq : s.seq = none) (hc : s.cmds = w :: ws) (hd : decode w = .ok i) :
    step s = exec i { s with cmds := ws } := by
  rw [step_bench ha he, blockMove_idle hq hc, present, hd]

/-- On the test bench with no turn fixed, an operation that has entered a phase advances. -/
theorem step_bench_enter {s : State} (he : s.env = .bench) (ha : s.agenda = []) (i : Instr) (ph : Phase) (w : Work) :
    step (enter i ph w s) = exec i (enter i ph w s) :=
  (step_bench (s := enter i ph w s) ha he).trans (blockMove_busy (enter_seq i ph w s))

section
variable {s : State} {bus addr : Byte} (he : s.env = .bench) (ha : s.agenda = []) (hr : s.replies = [])
  (hq : s.seq = none) (hbus : bus.toNat < s.cfg.nbus) (haddr : addr.toNat < 0x80) (hk : rawKey bus addr ∈ s.wired)
include he ha hr hq hbus haddr hk

/-- BWR from its word on the test bench: two steps, the cell written, the response `OK` (40_bus_master.md R71). -/
theorem runs_bwr_bench {reg v : Byte} {ws : List CmdWord} (hc : s.cmds = encode (.bwr bus addr reg v) :: ws) :
    runs 2 s =
      .next { s with cmds := ws, mem := Memory.write s.mem (cellAddr (rawKey bus addr) reg) v,
                     busHist := s.busHist ++ [.write (rawKey bus addr) reg v none],
                     rsps := s.rsps ++ [rspOf 0x10#8 0x00#8 0#32] } := by
  have haccept := (step_bench_present he ha hq hc (decode_encode_bwr bus addr reg v)).trans
    (exec_bwr_idle (by exact hq) (by exact hbus) haddr reg v)
  rw [runs_succ haccept,
    runs_succ ((step_bench_enter (by exact he) (by exact ha) _ _ _).trans (exec_bwr_bus rfl)), runs, bwrBus,
    memWrite_bench (by exact he) (by exact hr) (by exact hk)]
  exact congrArg _ (by rw [respond_bus, ← hq]; rfl)

/-- BRD from its word on the test bench: two steps, the response `OK` with the cell's byte (40_bus_master.md R72). -/
theorem runs_brd_bench {reg : Byte} {ws : List CmdWord} (hc : s.cmds = encode (.brd bus addr reg) :: ws) :
    runs 2 s =
      .next { s with cmds := ws,
                     busHist := s.busHist ++
                       [.read (rawKey bus addr) reg (cellByte s.mem (cellAddr (rawKey bus addr) reg)) none],
                     rsps := s.rsps ++ [rspOf 0x11#8 0x00#8
                       (0#24 ++ cellByte s.mem (cellAddr (rawKey bus addr) reg))] } := by
  have haccept := (step_bench_present he ha hq hc (decode_encode_brd bus addr reg)).trans
    (exec_brd_idle (by exact hq) (by exact hbus) haddr reg)
  rw [runs_succ haccept,
    runs_succ ((step_bench_enter (by exact he) (by exact ha) _ _ _).trans (exec_brd_bus rfl)), runs, readAndRespond,
    memRead_bench (by exact he) (by exact hr) (by exact hk), zeros_append_byte]
  exact congrArg _ (by rw [respond_bus, ← hq]; rfl)

end

/-- On the test bench WRFLD's read phase latches the cell's byte and goes on to the write phase
(41_register_codec.md R82). -/
theorem wrfldRd_bench {s : State} {w : Work} (he : s.env = .bench) (hr : s.replies = []) (hk : w.key ∈ s.wired)
    (i : Instr) (reg : Byte) :
    wrfldRd i reg w s =
      enter i .wr { w with old := cellByte s.mem (cellAddr w.key reg), readOk := true }
        { s with busHist := s.busHist ++ [.read w.key reg (cellByte s.mem (cellAddr w.key reg)) none] } := by
  simp [wrfldRd, memRead_bench he hr hk]

end Sys2Proof.Machine

/-! SUPPORT. The statements of 20_memory.md: the slave cells, who writes them, and the bus transactions of a step. -/

namespace Sys2Proof.Machine

/-- Settles O26: both phases make one write transaction with the latched key, which leaves every other cell alone. -/
theorem storeTouchesOneCell : Obligations.StoreTouchesOneCell := by
  intro s t p reg v hq hop h
  have hadv := exec_busy hq h
  have hmem : t.mem = (memWrite p.work.key reg v s).2.mem := by
    obtain ⟨bus, addr, hi, hp⟩ | ⟨dev, mask, bits, shift, hi, hp, rfl⟩ := hop
    · have ht : t = bwrBus p.op reg v p.work s := by simpa only [Advanced, hi, hp] using hadv
      exact ht ▸ rfl
    · have ht : t = wrfldWr p.op reg mask bits shift p.work s := by simpa only [Advanced, hi, hp] using hadv
      exact ht ▸ rfl
  rw [hmem]
  refine ⟨fun a ha => memWrite_read_other ha v s, fun he hk hr => ?_⟩
  rw [memWrite_bench he hr hk]
  exact Memory.read_write_same s.mem _ v

/-- Settles O27: an address is the key's bus, address and register as digits, the last two below 128 and 256. -/
theorem slaveCellsAreDistinct : Obligations.SlaveCellsAreDistinct := by
  rintro ⟨bus, addr⟩ ⟨bus', addr'⟩ reg reg' h
  have haddr := addr.isLt
  have haddr' := addr'.isLt
  have hreg := reg.isLt
  have hreg' := reg'.isLt
  simp only [cellAddr] at h
  obtain rfl : bus = bus' := BitVec.eq_of_toNat_eq (by omega)
  obtain rfl : addr = addr' := BitVec.eq_of_toNat_eq (by omega)
  exact ⟨rfl, BitVec.eq_of_toNat_eq (by omega)⟩

/-- Settles O29: BWR's two steps leave the byte in the cell, and BRD's two steps answer the byte the cell holds. -/
theorem benchReadAfterWrite : Obligations.BenchReadAfterWrite := by
  intro s bus addr reg v ws he ha hr hq hc hbus haddr hk
  have hwrite := runs_bwr_bench he ha hr hq hbus haddr hk hc
  have hread := (runs_add 2 2 hwrite).trans <|
    runs_brd_bench (by exact he) (by exact ha) (by exact hr) (by exact hq) (by exact hbus) haddr (by exact hk) rfl
  refine ⟨_, hread, hq, rfl, ?_⟩
  simp only [cellByte_write_same, List.append_assoc, List.singleton_append]

/-- Settles O30: the write phase computes its byte from `OLD`, which the read phase latched before the slave's change. -/
theorem wrfldGapLosesTheSlaveChange : Obligations.WrfldGapLosesTheSlaveChange := by
  intro s dev reg mask bits shift v w rest he hr hk hq ha
  have hrd := (step_busy ha hq).trans (exec_wrfld_rd hq)
  rw [wrfldRd_bench (by exact he) (by exact hr) (by exact hk)] at hrd
  rw [runs_succ hrd, runs_succ (step_slave rfl), slaveStore_eq,
    runs_succ ((step_busy rfl rfl).trans (exec_wrfld_wr rfl)), runs, wrfldWr,
    memWrite_bench (by exact he) (by exact hr) (by exact hk)]
  exact ⟨_, rfl, rfl, rfl, Memory.read_write_same _ _ _⟩

/-- Settles O32, by what a step appends to the bus history. -/
theorem oneTransactionAtATime : Obligations.OneTransactionAtATime := by
  intro s t h
  obtain hnone | ⟨p, x, hq, hp, -, hx⟩ := step_busHist h
  · exact .inl hnone
  · exact .inr ⟨x, p, hx, hq, hp⟩

/-- Settles O53: only the slave's own change and the write transaction of a phase write a cell. -/
theorem cellWriters : Obligations.CellWriters := by
  intro s t h hne
  cases stepCase h with
  | event he => exact .inl (he.mem.resolve_left hne)
  | silent ag d _ _ _ ht => exact absurd (by rw [ht]) hne
  | present w ws ag d u _ _ _ he hs =>
    obtain ⟨q, rs, rfl⟩ := hs.frame
    obtain ⟨c, ts, m, d0, d1, dh, rfl⟩ := he.frame
    exact absurd rfl hne
  | advance p ag d _ _ ha =>
    obtain ⟨u, he, hs⟩ := advanced_settles ha
    obtain ⟨q, rs, rfl⟩ := hs.frame
    exact .inr (he.mem.resolve_left hne)

end Sys2Proof.Machine

/-! SUPPORT. The decoder and the encoder are each other's inverse: the word of an operation and the fields of a word as
numbers, so that every format is one arithmetic fact. -/

namespace Sys2Proof

/-- The operands of an operation as the number its word holds below the opcode byte (30_encoding.md R51). -/
def operandBits : Instr → Nat
  | .bwr bus addr reg data         =>
    bus.toNat * 2 ^ 48 + addr.toNat * 2 ^ 40 + reg.toNat * 2 ^ 32 + data.toNat * 2 ^ 24
  | .brd bus addr reg              => bus.toNat * 2 ^ 48 + addr.toNat * 2 ^ 40 + reg.toNat * 2 ^ 32
  | .rdreg dev reg                 => dev.toNat * 2 ^ 48 + reg.toNat * 2 ^ 40
  | .wrfld dev reg mask bits shift =>
    dev.toNat * 2 ^ 48 + reg.toNat * 2 ^ 40 + mask.toNat * 2 ^ 32 + bits.toNat * 2 ^ 24 + shift.toNat * 2 ^ 16
  | .modewr mode                   => mode.toNat * 2 ^ 48
  | .rot cw speed angle            => cw.toNat * 2 ^ 48 + speed.toNat * 2 ^ 40 + angle.toNat
  | .pwmwr ch duty                 => ch.toNat * 2 ^ 48 + duty.toNat * 2 ^ 40
  | .encrd | .encclr | .tmark | .tmrd | .moderd => 0

/-- The word of an operation, as a number: the opcode byte above its operands. -/
theorem toNat_encode (i : Instr) : (encode i).toNat = i.op.byte.toNat * 2 ^ 56 + operandBits i := by
  cases i with
  | encrd | encclr | tmark | tmrd | moderd => rfl
  | modewr mode => exact encode_modewr_toNat mode
  | bwr | brd | rdreg | wrfld | rot | pwmwr =>
    simp only [encode_bwr_toNat, encode_brd_toNat, encode_rdreg_toNat, encode_wrfld_toNat, encode_rot_toNat,
      encode_pwmwr_toNat, Instr.op, Opcode.byte, operandBits, BitVec.toNat_ofNat]
    omega

/-- No operand reaches the opcode byte. -/
theorem operandBits_lt (i : Instr) : operandBits i < 2 ^ 56 := by
  cases i <;> simp only [operandBits] <;> omega

/-- Bits 63:56 of an operation's word name its opcode. -/
theorem fieldByte_encode (i : Instr) : fieldByte (encode i) 56 = i.op.byte := by
  have hop := i.op.byte.isLt
  have hlow := operandBits_lt i
  have hw := toNat_encode i
  exact BitVec.eq_of_toNat_eq (by rw [toNat_fieldByte]; omega)

/-- Under its own opcode an operation's word has the operands in their fields and 0 in the zero fields. -/
theorem decodeFields_encode (i : Instr) : decodeFields (encode i) i.op = .ok i := by
  have hw := toNat_encode i
  -- in every format each operand is its own digits of the word's number
  cases i <;> simp only [Instr.op, Opcode.byte, operandBits, BitVec.toNat_ofNat] at hw <;>
    simp only [Instr.op, decodeFields, whenZero_ok, lowZero_iff, beq_iff_eq, Instr.bwr.injEq, Instr.brd.injEq,
      Instr.rdreg.injEq, Instr.wrfld.injEq, Instr.modewr.injEq, Instr.rot.injEq, Instr.pwmwr.injEq,
      ← BitVec.toNat_inj, toNat_fieldByte, toNat_field, BitVec.toNat_ofNat, and_true] <;>
    omega

/-- Every bit of a word is in its opcode byte, in an operand or in a zero field. -/
theorem encode_of_decodeFields {w : CmdWord} {o : Opcode} {i : Instr} (hop : fieldByte w 56 = o.byte)
    (h : decodeFields w o = .ok i) : encode i = w := by
  have hlt := w.isLt
  have hbyte : w.toNat / 2 ^ 56 % 256 = o.byte.toNat := by rw [← toNat_fieldByte, hop]
  apply BitVec.eq_of_toNat_eq
  rw [toNat_encode]
  -- in every format the opcode byte, the operands and the zero fields are all the digits of the word's number
  cases o <;>
    simp only [decodeFields, whenZero_ok, lowZero_iff, beq_iff_eq, ← BitVec.toNat_inj, toNat_fieldByte,
      BitVec.toNat_ofNat] at h <;>
    obtain ⟨hzero, rfl⟩ := h <;>
    simp only [operandBits, Instr.op, toNat_fieldByte, toNat_field, ← hbyte] <;> omega

/-- The word of an operation decodes to it (30_encoding.md R51, R52). -/
theorem decode_encode (i : Instr) : decode (encode i) = .ok i :=
  (decode_eq (fieldByte_encode i)).trans (decodeFields_encode i)

/-- A word that decodes is its operation's word (30_encoding.md R51, R54). -/
theorem encode_of_decode {w : CmdWord} {i : Instr} (h : decode w = .ok i) : encode i = w := by
  obtain ⟨o, hop, hfields⟩ := decode_ok h
  exact encode_of_decodeFields hop hfields

/-- A word that decodes has its operation's opcode byte. -/
theorem opcode_of_decode {w : CmdWord} {i : Instr} (h : decode w = .ok i) : i.opcode = fieldByte w 56 := by
  rw [← encode_of_decode h, fieldByte_encode, Instr.opcode]

end Sys2Proof

/-! SUPPORT. The printed opcode map against the decoder: a word matches the row of an opcode when its opcode byte is
that opcode's and the zero fields of the format are zero. -/

namespace Sys2Proof

/-- The row of the opcode map that an opcode stands in (30_encoding.md R54). -/
def Opcode.row : Opcode → OpcodeRow
  | .bwr    => opcodeTable[0]
  | .brd    => opcodeTable[1]
  | .rdreg  => opcodeTable[2]
  | .wrfld  => opcodeTable[3]
  | .encrd  => opcodeTable[4]
  | .encclr => opcodeTable[5]
  | .tmark  => opcodeTable[6]
  | .tmrd   => opcodeTable[7]
  | .moderd => opcodeTable[8]
  | .modewr => opcodeTable[9]
  | .rot    => opcodeTable[10]
  | .pwmwr  => opcodeTable[11]

/-- The rows of the opcode map are the rows of the opcodes. -/
theorem mem_opcodeTable {r : OpcodeRow} : r ∈ opcodeTable ↔ ∃ o : Opcode, o.row = r := by
  have hrows : opcodeTable = Opcode.all.map Opcode.row := rfl
  rw [hrows, List.mem_map]
  exact ⟨fun ⟨o, _, ho⟩ => ⟨o, ho⟩, fun ⟨o, ho⟩ => ⟨o, by cases o <;> decide, ho⟩⟩

/-- The row of an operation's opcode spells its mnemonic. -/
theorem mnemonic_row (i : Instr) : i.op.row.mnemonic = i.mnemonic := by
  cases i <;> rfl

/-- Equal concatenations have equal parts. -/
theorem append_eq_append_iff {m n : Nat} {x x' : BitVec m} {y y' : BitVec n} :
    x ++ y = x' ++ y' ↔ x = x' ∧ y = y' := by
  refine ⟨fun h => ⟨?_, ?_⟩, fun ⟨hx, hy⟩ => by rw [hx, hy]⟩
  · simpa only [BitVec.extractLsb'_append_eq_left] using congrArg (BitVec.extractLsb' n m) h
  · simpa only [BitVec.extractLsb'_append_eq_right] using congrArg (BitVec.extractLsb' 0 n) h

/-- The comparison of 30_encoding.md R54 for ROT, whose zero field is a byte in the middle of the word. -/
theorem masked_eq_rot_iff (w : CmdWord) :
    w &&& 0xFF0000FF00000000#64 = 0x4000000000000000#64 ↔ fieldByte w 56 = 0x40#8 ∧ fieldByte w 32 = 0#8 := by
  have hsplit : w = fieldByte w 56 ++ w.extractLsb' 40 16 ++ fieldByte w 32 ++ w.extractLsb' 0 32 := by
    have hlt := w.isLt
    apply BitVec.eq_of_toNat_eq
    rw [toNat_concat, toNat_concat, toNat_concat, toNat_fieldByte, toNat_fieldByte, toNat_field, toNat_field]
    omega
  have hmask : 0xFF0000FF00000000#64 = BitVec.allOnes 8 ++ 0#16 ++ BitVec.allOnes 8 ++ 0#32 := rfl
  have hmasked : w &&& 0xFF0000FF00000000#64 = fieldByte w 56 ++ 0#16 ++ fieldByte w 32 ++ 0#32 := by
    conv_lhs => rw [hsplit, hmask]
    rw [BitVec.and_append, BitVec.and_append, BitVec.and_append]
    simp only [BitVec.and_allOnes, BitVec.and_zero]
  have hvalue : 0x4000000000000000#64 = 0x40#8 ++ 0#16 ++ 0#8 ++ 0#32 := rfl
  rw [hmasked, hvalue, append_eq_append_iff, append_eq_append_iff, append_eq_append_iff]
  simp only [and_true]

/-- A word matches the row of an opcode exactly when it decodes under that opcode (30_encoding.md R54). -/
theorem matches_row_iff (o : Opcode) (w : CmdWord) :
    w &&& o.row.mask = o.row.value ↔ fieldByte w 56 = o.byte ∧ ∃ i, decodeFields w o = .ok i := by
  have low (m n : Nat) (h : 8 + m + n = 64) := masked_eq_iff w m n h o.byte
  cases o <;> simp only [decodeFields, whenZero_ok, lowZero, beq_iff_eq, exists_and_left, exists_eq', and_true]
  case bwr => exact low 32 24 rfl
  case brd => exact low 24 32 rfl
  case rdreg | pwmwr => exact low 16 40 rfl
  case wrfld => exact low 40 16 rfl
  case encrd | encclr | tmark | tmrd | moderd => exact low 0 56 rfl
  case modewr => exact low 8 48 rfl
  case rot => exact masked_eq_rot_iff w

/-- The word of an operation matches the row of its opcode. -/
theorem encode_matches_row (i : Instr) : encode i &&& i.op.row.mask = i.op.row.value :=
  (matches_row_iff i.op _).2 ⟨fieldByte_encode i, i, decodeFields_encode i⟩

/-- A word that decodes matches the row of its operation's opcode. -/
theorem matches_row_of_decode {w : CmdWord} {i : Instr} (h : decode w = .ok i) :
    w &&& i.op.row.mask = i.op.row.value := by
  rw [← encode_of_decode h]
  exact encode_matches_row i

/-- The opcode bytes differ (30_encoding.md R54). -/
theorem Opcode.byte_injective : Function.Injective Opcode.byte := fun _ _ h =>
  Option.some.inj ((opcodeOf_eq_some.2 rfl).symm.trans (opcodeOf_eq_some.2 h))

end Sys2Proof

/-! SUPPORT. The fields of a response word, and the refusals: with which status the checks of 30_encoding.md R57 refuse
a word, as a function of the word and the parameters. -/

namespace Sys2Proof.Machine

/-! ### Response words -/

/-- A response word by its fields (30_encoding.md R53). -/
theorem responseWord_eq (op : Byte) (st : Status) (data : Word) :
    responseWord op st data = rspOf op st.code (if st = .ok then data else 0#32) := rfl

/-- Bits 63:56 of a response are the opcode byte. -/
theorem rspOf_opcode (op st : Byte) (data : Word) : (rspOf op st data).extractLsb' 56 8 = op := by
  have hw := toNat_rspOf op st data
  exact BitVec.eq_of_toNat_eq (by rw [toNat_field]; omega)

/-- Bits 55:48 of a response are the status code. -/
theorem rspOf_status (op st : Byte) (data : Word) : (rspOf op st data).extractLsb' 48 8 = st := by
  have hw := toNat_rspOf op st data
  exact BitVec.eq_of_toNat_eq (by rw [toNat_field]; omega)

/-- Bits 47:32 of a response are zero. -/
theorem rspOf_zero (op st : Byte) (data : Word) : (rspOf op st data).extractLsb' 32 16 = 0#16 := by
  have hw := toNat_rspOf op st data
  exact BitVec.eq_of_toNat_eq (by rw [toNat_field, BitVec.toNat_ofNat]; omega)

/-- Bits 31:0 of a response are the data. -/
theorem rspOf_data (op st : Byte) (data : Word) : (rspOf op st data).extractLsb' 0 32 = data := by
  have hw := toNat_rspOf op st data
  exact BitVec.eq_of_toNat_eq (by rw [toNat_field]; omega)

/-- The numbers of the six statuses differ (60_exceptions.md R161). -/
theorem Status.code_injective : Function.Injective Status.code := by
  intro st st'
  cases st <;> cases st' <;> decide

/-- Equal response words have the same status. -/
theorem status_of_responseWord_eq {op op' : Byte} {st st' : Status} {data data' : Word}
    (h : responseWord op st data = responseWord op' st' data') : st = st' := by
  have hfield := congrArg (BitVec.extractLsb' 48 8) h
  rw [responseWord_eq, responseWord_eq, rspOf_status, rspOf_status] at hfield
  exact Status.code_injective hfield

/-! ### The checks -/

/-- The status with which the device lookup and the register check refuse: checks (4) and (5) of 30_encoding.md R57. -/
def lookupRefusal (c : Params) (dev reg : Byte) : Option Status :=
  match lookup c dev reg with
  | .ok _     => none
  | .error st => some st

/-- The status with which an operation is refused: checks (3) to (5) of 30_encoding.md R57. -/
def refusal (c : Params) (i : Instr) : Option Status :=
  if i.WellFormed c then
    match i with
    | .rdreg dev reg       => lookupRefusal c dev reg
    | .wrfld dev reg _ _ _ => lookupRefusal c dev reg
    | _                    => none
  else some .illegalOperand

/-- The status with which a word is refused: all the checks of 30_encoding.md R57. -/
def wordRefusal (c : Params) (w : CmdWord) : Option Status :=
  match decode w with
  | .ok i    => refusal c i
  | .error _ => some .illegalCmd

/-- A lookup that does not refuse gives a key. -/
theorem lookup_of_not_refused {c : Params} {dev reg : Byte} (h : lookupRefusal c dev reg = none) :
    ∃ k, lookup c dev reg = .ok k := by
  unfold lookupRefusal at h
  cases hl : lookup c dev reg with
  | ok k => exact ⟨k, rfl⟩
  | error st => simp [hl] at h

/-- A legal register of a device of the table passes the lookup (41_register_codec.md R80). -/
theorem lookup_eq_ok {c : Params} {dev reg : Byte} {k : Key} (hdev : 1 ≤ dev.toNat)
    (hk : c.devTab[dev.toNat - 1]? = some k) (hreg : reg ∈ c.legalRegs) : lookup c dev reg = .ok k := by
  simp only [lookup, if_neg (show ¬ dev.toNat = 0 by omega), hk, if_pos hreg]

/-! ### An idle block -/

/-- An operand outside its range refuses the operation (30_encoding.md R55). -/
theorem accept_illFormed {i : Instr} {s : State} (h : i.WellFormed s.cfg = false) (f : State → State) :
    accept i f s = raise i.opcode .illegalOperand s := by
  simp [accept, h]

/-- Checks (4) and (5) refuse a codec operation whose operands are in range (41_register_codec.md R80). -/
theorem acceptCodec_refused {i : Instr} {s : State} {dev reg : Byte} {st : Status} (hw : i.WellFormed s.cfg = true)
    (h : lookupRefusal s.cfg dev reg = some st) : acceptCodec i dev reg s = raise i.opcode st s := by
  unfold lookupRefusal at h
  cases hl : lookup s.cfg dev reg <;> simp_all [acceptCodec, accept]

/-- Check (3) comes before the device and the register: an operand outside its range is refused whatever they are
(30_encoding.md R57). -/
theorem exec_illFormed {i : Instr} {s : State} (hq : s.seq = none) (h : i.WellFormed s.cfg = false) :
    exec i s = .next (raise i.opcode .illegalOperand s) := by
  cases i <;>
    simp only [exec, execBwr, execBrd, execRdreg, execWrfld, execRot, execEncrd, execEncclr, execTmark, execTmrd,
      execModerd, execModewr, execPwmwr, phased, oneStep, hq, acceptCodec, accept_illFormed h]

/-- An idle block refuses an operation with the status of its checks. -/
theorem exec_refused {i : Instr} {s : State} {st : Status} (hq : s.seq = none) (h : refusal s.cfg i = some st) :
    exec i s = .next (raise i.opcode st s) := by
  cases hw : i.WellFormed s.cfg with
  | false =>
    obtain rfl : Status.illegalOperand = st := by simpa [refusal, hw] using h
    exact exec_illFormed hq hw
  | true =>
    simp only [refusal, hw, if_true] at h
    cases i with
    | rdreg dev reg => simp only [exec, execRdreg, phased, hq, acceptCodec_refused hw h]
    | wrfld dev reg => simp only [exec, execWrfld, phased, hq, acceptCodec_refused hw h]
    | bwr | brd | encrd | encclr | tmark | tmrd | moderd | modewr | rot | pwmwr => cases h

/-- An idle block accepts an operation that its checks do not refuse. -/
theorem exec_accepted {i : Instr} {s : State} (hq : s.seq = none) (h : refusal s.cfg i = none) :
    ∃ t, exec i s = .next t ∧ Accepted i s t := by
  cases hw : i.WellFormed s.cfg with
  | false => simp [refusal, hw] at h
  | true =>
    simp only [refusal, hw, if_true] at h
    cases i with
    | rdreg | wrfld =>
      obtain ⟨k, hk⟩ := lookup_of_not_refused h
      refine ⟨enter _ .rd { Work.fresh with key := k } s, ?_, k, hk, rfl⟩
      simp only [exec, execRdreg, execWrfld, phased, hq, acceptCodec, accept, hw, if_true, hk]
    | bwr | brd | encrd | encclr | tmark | tmrd | moderd | modewr | rot | pwmwr =>
      refine ⟨_, ?_, rfl⟩
      simp only [exec, execBwr, execBrd, execRot, execEncrd, execEncclr, execTmark, execTmrd, execModerd, execModewr,
        execPwmwr, phased, oneStep, hq, accept, hw, if_true]

/-- An accepted operation is begun, or answered `OK`. -/
theorem Accepted.begun_or_ok {i : Instr} {s t : State} (h : Accepted i s t) :
    t.seq ≠ none ∨ ∃ op data, t.rsps = s.rsps ++ [responseWord op .ok data] := by
  cases i with
  | bwr | brd | rot => exact .inl (by simp [show t = _ from h])
  | rdreg | wrfld =>
    obtain ⟨k, -, rfl⟩ := h
    exact .inl (by simp)
  | encrd | encclr | tmark | tmrd | moderd | modewr => exact .inr ⟨_, _, congrArg State.rsps h⟩
  | pwmwr ch duty =>
    refine .inr ⟨Instr.opcode (.pwmwr ch duty), 0#32, (congrArg State.rsps h).trans ?_⟩
    cases chanOf ch <;> rfl

/-- An acceptance is no refusal. -/
theorem Accepted.ne_raise {i : Instr} {s : State} {op : Byte} {st : Status} (hst : st ≠ .ok) :
    ¬ Accepted i s (raise op st s) := by
  intro h
  obtain hbegun | ⟨op', data, hrsps⟩ := h.begun_or_ok
  · exact hbegun rfl
  · exact hst (status_of_responseWord_eq (by simpa using hrsps))

/-- A refusal shows its status. -/
theorem status_of_raise_eq {op op' : Byte} {st st' : Status} {s : State} (h : raise op st s = raise op' st' s) :
    st = st' :=
  status_of_responseWord_eq (by simpa using congrArg State.rsps h)

/-- An idle block refuses a word with the status of its checks, with the word's own opcode byte (30_encoding.md R53). -/
theorem present_refused {s : State} {w : CmdWord} {st : Status} (hq : s.seq = none)
    (h : wordRefusal s.cfg w = some st) : present w s = .next (raise (fieldByte w 56) st s) := by
  unfold wordRefusal at h
  unfold present
  cases hd : decode w with
  | ok i =>
    simp only [hd] at h
    exact opcode_of_decode hd ▸ exec_refused hq h
  | error e =>
    simp only [hd, Option.some.injEq] at h
    rw [← h]

/-- A word that an idle block refuses is refused by its checks. -/
theorem wordRefusal_of_present {s : State} {w : CmdWord} {op : Byte} {st : Status} (hq : s.seq = none)
    (hst : st ≠ .ok) (h : present w s = .next (raise op st s)) : wordRefusal s.cfg w = some st := by
  cases hr : wordRefusal s.cfg w with
  | some st' =>
    rw [present_refused hq hr, Host.Outcome.next.injEq] at h
    rw [status_of_raise_eq h]
  | none =>
    exfalso
    unfold wordRefusal at hr
    cases hd : decode w with
    | ok i =>
      simp only [hd] at hr
      obtain ⟨t, ht, ha⟩ := exec_accepted hq hr
      obtain rfl : t = raise op st s := by simpa [present, hd, ht] using h
      exact ha.ne_raise hst
    | error e => simp [hd] at hr

end Sys2Proof.Machine

/-! SUPPORT. Operations run from their words on the test bench: the steps of TMARK, ENCCLR, MODEWR, PWMWR and WRFLD. -/

namespace Sys2Proof.Machine

/-- A response `OK` of an idle block: its result and frame (30_encoding.md R53). -/
theorem respond_ok_idle {s : State} (hq : s.seq = none) (op : Byte) (data : Word) :
    respond op .ok data s = { s with rsps := s.rsps ++ [rspOf op 0x00#8 data] } := by
  rw [respond_ok, ← hq]

section
variable {s : State} (he : s.env = .bench) (ha : s.agenda = []) (hq : s.seq = none)
include he ha hq

/-- An operation presented by its word on the test bench is accepted when its checks pass. -/
theorem step_bench_accepted {i : Instr} {ws : List CmdWord} (hc : s.cmds = encode i :: ws)
    (hr : refusal s.cfg i = none) : ∃ t, step s = .next t ∧ Accepted i { s with cmds := ws } t := by
  obtain ⟨t, ht, hacc⟩ := exec_accepted (s := { s with cmds := ws }) hq hr
  exact ⟨t, (step_bench_present he ha hq hc (decode_encode i)).trans ht, hacc⟩

/-- An operation of one step presented by its word on the test bench: `u` is the state it leaves before its response. -/
theorem step_bench_answered {i : Instr} {ws : List CmdWord} {u : State} {data : Word}
    (hc : s.cmds = encode i :: ws) (hr : refusal s.cfg i = none) (hu : u.seq = none)
    (hacc : ∀ t, Accepted i { s with cmds := ws } t → t = respond i.opcode .ok data u) :
    step s = .next { u with rsps := u.rsps ++ [rspOf i.opcode 0x00#8 data] } := by
  obtain ⟨t, ht, hat⟩ := step_bench_accepted he ha hq hc hr
  rw [ht, hacc t hat, respond_ok_idle hu]

/-- TMARK from its word (42_encoder_tracker.md R95). -/
theorem step_bench_tmark {ws : List CmdWord} (hc : s.cmds = encode .tmark :: ws) :
    step s = .next { s with cmds := ws, tStart := s.tick, rsps := s.rsps ++ [rspOf 0x32#8 0x00#8 0#32] } :=
  step_bench_answered he ha hq hc rfl (by exact hq) fun _ h => h

/-- ENCCLR from its word (42_encoder_tracker.md R94). -/
theorem step_bench_encclr {ws : List CmdWord} (hc : s.cmds = encode .encclr :: ws) :
    step s = .next { s with cmds := ws, count := 0#32, rsps := s.rsps ++ [rspOf 0x31#8 0x00#8 0#32] } :=
  step_bench_answered he ha hq hc rfl (by exact hq) fun _ h => h

/-- MODEWR of one of the six modes from its word (42_encoder_tracker.md R98). -/
theorem step_bench_modewr {m : Byte} {ws : List CmdWord} (hc : s.cmds = encode (.modewr m) :: ws) (hm : m.toNat < 6) :
    step s = .next { s with cmds := ws, mode := modeOf m, rsps := s.rsps ++ [rspOf 0x35#8 0x00#8 0#32] } :=
  step_bench_answered he ha hq hc (by simp [refusal, Instr.WellFormed, hm]) (by exact hq) fun _ h => h

/-- PWMWR of channel 0 from its word (43_rotation_controller.md R111). -/
theorem step_bench_pwmwr_ch0 {v : Byte} {ws : List CmdWord} (hc : s.cmds = encode (.pwmwr 0#8 v) :: ws) :
    step s = .next { s with cmds := ws, duty0 := v, dutyHist := s.dutyHist ++ [⟨.ch0, v⟩],
                            rsps := s.rsps ++ [rspOf 0x41#8 0x00#8 0#32] } :=
  step_bench_answered he ha hq hc rfl (by exact hq) fun _ h => h

/-- PWMWR of channel 1 from its word (43_rotation_controller.md R111). -/
theorem step_bench_pwmwr_ch1 {v : Byte} {ws : List CmdWord} (hc : s.cmds = encode (.pwmwr 1#8 v) :: ws) :
    step s = .next { s with cmds := ws, duty1 := v, dutyHist := s.dutyHist ++ [⟨.ch1, v⟩],
                            rsps := s.rsps ++ [rspOf 0x41#8 0x00#8 0#32] } :=
  step_bench_answered he ha hq hc rfl (by exact hq) fun _ h => h

/-- The two commands of BRAKE and of COAST, channel 0 first (30_encoding.md R61). -/
theorem runs_bench_pwmwr_both {v : Byte} {ws : List CmdWord}
    (hc : s.cmds = encode (.pwmwr 0#8 v) :: encode (.pwmwr 1#8 v) :: ws) :
    runs 2 s = .next { s with cmds := ws, duty0 := v, duty1 := v,
                              dutyHist := s.dutyHist ++ [⟨.ch0, v⟩, ⟨.ch1, v⟩],
                              rsps := s.rsps ++ [rspOf 0x41#8 0x00#8 0#32, rspOf 0x41#8 0x00#8 0#32] } := by
  rw [runs_succ (step_bench_pwmwr_ch0 he ha hq hc),
    runs_succ (step_bench_pwmwr_ch1 (by exact he) (by exact ha) (by exact hq) rfl), runs]
  simp only [List.append_assoc, List.singleton_append]

/-- The three commands of MODELBEGIN (30_encoding.md R61). -/
theorem runs_bench_modelbegin {ws : List CmdWord}
    (hc : s.cmds = encode .tmark :: encode .encclr :: encode (.modewr 2#8) :: ws) :
    runs 3 s = .next { s with cmds := ws, tStart := s.tick, count := 0#32, mode := 2#3,
                              rsps := s.rsps ++ [rspOf 0x32#8 0x00#8 0#32, rspOf 0x31#8 0x00#8 0#32,
                                                 rspOf 0x35#8 0x00#8 0#32] } := by
  rw [runs_succ (step_bench_tmark he ha hq hc),
    runs_succ (step_bench_encclr (by exact he) (by exact ha) (by exact hq) rfl),
    runs_succ (step_bench_modewr (by exact he) (by exact ha) (by exact hq) rfl (by decide)), runs]
  simp only [List.append_assoc, List.cons_append, List.nil_append]
  rfl

end

section
variable {s : State} {w : Work} (he : s.env = .bench) (ha : s.agenda = []) (hr : s.replies = [])
  (hk : w.key ∈ s.wired) (dev reg mask bits shift : Byte)
include he ha hr hk

/-- WRFLD's read phase on the test bench (41_register_codec.md R82). -/
theorem step_bench_wrfld_rd :
    step (enter (.wrfld dev reg mask bits shift) .rd w s) =
      .next (enter (.wrfld dev reg mask bits shift) .wr
        { w with old := cellByte s.mem (cellAddr w.key reg), readOk := true }
        { s with busHist := s.busHist ++ [.read w.key reg (cellByte s.mem (cellAddr w.key reg)) none] }) := by
  rw [step_bench_enter he ha, exec_wrfld_rd rfl, wrfldRd_bench (by exact he) (by exact hr) (by exact hk)]
  rfl

/-- WRFLD's write phase on the test bench, after a read that succeeded (41_register_codec.md R82). -/
theorem step_bench_wrfld_wr (hok : w.readOk = true) :
    step (enter (.wrfld dev reg mask bits shift) .wr w s) =
      .next { s with seq := none,
                     busHist := s.busHist ++ [.write w.key reg (newByte w.old mask bits shift) none],
                     mem := Memory.write s.mem (cellAddr w.key reg) (newByte w.old mask bits shift),
                     rsps := s.rsps ++ [rspOf 0x21#8 0x00#8 0#32] } := by
  rw [step_bench_enter he ha, exec_wrfld_wr rfl, wrfldWr, memWrite_bench (by exact he) (by exact hr) (by exact hk),
    respond_bus, hok]
  rfl

end

/-- WRFLD from its word on the test bench: one read and one write of the register of a wired slave, and the response
`OK` (41_register_codec.md R82). -/
theorem runs_bench_wrfld {s : State} {dev reg mask bits shift : Byte} {k : Key} {ws : List CmdWord}
    (he : s.env = .bench) (ha : s.agenda = []) (hq : s.seq = none)
    (hc : s.cmds = encode (.wrfld dev reg mask bits shift) :: ws) (hr : s.replies = []) (hk : k ∈ s.wired)
    (hshift : shift.toNat < 8) (hlookup : lookup s.cfg dev reg = .ok k) :
    runs 3 s =
      .next { s with
        cmds := ws,
        mem := Memory.write s.mem (cellAddr k reg) (newByte (cellByte s.mem (cellAddr k reg)) mask bits shift),
        busHist := s.busHist ++
          [.read k reg (cellByte s.mem (cellAddr k reg)) none,
           .write k reg (newByte (cellByte s.mem (cellAddr k reg)) mask bits shift) none],
        rsps := s.rsps ++ [rspOf 0x21#8 0x00#8 0#32] } := by
  have hpass : refusal s.cfg (.wrfld dev reg mask bits shift) = none := by
    simp [refusal, Instr.WellFormed, hshift, lookupRefusal, hlookup]
  obtain ⟨t, haccept, k', hk', rfl⟩ := step_bench_accepted he ha hq hc hpass
  obtain rfl : k = k' := Except.ok.inj (hlookup.symm.trans hk')
  rw [runs_succ haccept,
    runs_succ (step_bench_wrfld_rd (by exact he) (by exact ha) (by exact hr) (by exact hk) _ _ _ _ _),
    runs_succ (step_bench_wrfld_wr (by exact he) (by exact ha) (by exact hr) (by exact hk) _ _ _ _ _ rfl), runs, ← hq]
  simp only [List.append_assoc, List.singleton_append]

/-- A write of a whole register: the mask keeps nothing and the bits are not moved (30_encoding.md R61). -/
theorem newByte_whole (old v : Byte) : newByte old 0x00#8 v 0#8 = v := by
  simp [newByte]

end Sys2Proof.Machine

/-! SUPPORT. The statements of 30_encoding.md: the round trip, the opcode map, the refusals, the responses and the
pseudo-operations. -/

namespace Sys2Proof.Machine

/-- Settles O1: under its own opcode an operation's word has every operand in its field. -/
theorem decodeOfEncodeIsTheInstruction : Obligations.DecodeOfEncodeIsTheInstruction := decode_encode

/-- Settles O2: every bit of a word that decodes is the opcode's, an operand's or a zero field's. -/
theorem encodeOfDecodeIsTheWord : Obligations.EncodeOfDecodeIsTheWord := fun _ _ => encode_of_decode

/-- What is owed after a move of the block that began with one command owed, with the response it may have given. -/
theorem Settles.account {Q : InProgress → Prop} {u t : State} (h : Settles Q u t) :
    t.rsps.length + (if t.seq.isSome then 1 else 0) = u.rsps.length + 1 := by
  cases h <;> simp

/-- The account of a step: an event leaves it alone, and a move of the block answers its command or still owes it. -/
theorem step_account {s t : State} (h : step s = .next t) :
    t.rsps.length + owed t = s.rsps.length + owed s := by
  unfold owed
  cases stepCase h with
  | event he =>
    obtain ⟨c, tk, tm, md, m, ag, d, rfl⟩ := he.frame
    rfl
  | silent ag d _ _ _ ht => rw [ht]
  | present w ws ag d u _ hq hc he hs =>
    have haccount := hs.account
    obtain ⟨q, rs, rfl⟩ := hs.frame
    obtain ⟨c, ts, m, d0, d1, dh, rfl⟩ := he.frame
    simp only [hq, hc, List.length_cons, Option.isSome_none, Bool.false_eq_true, if_false] at haccount ⊢
    omega
  | advance p ag d _ hq ha =>
    obtain ⟨u, he, hs⟩ := advanced_settles ha
    have haccount := hs.account
    obtain ⟨q, rs, rfl⟩ := hs.frame
    obtain ⟨rest, d', bh, m, d0, d1, dh, rfl⟩ := he.frame
    simp only [hq, Option.isSome_some, if_true] at haccount ⊢
    omega

/-- Settles O44, by the account of a step and what a step appends to the responses. -/
theorem oneResponsePerCommand : Obligations.OneResponsePerCommand := by
  intro s t h
  refine ⟨step_account h, ?_⟩
  obtain hnone | ⟨op, st, data, hone⟩ := step_rsps h
  · exact ⟨[], by rw [hnone, List.append_nil], Nat.zero_le 1⟩
  · exact ⟨_, hone, le_rfl⟩

/-- Settles O3: a word matches the row of an opcode exactly when it decodes under that opcode, and its opcode byte names
one opcode only. -/
theorem decodeFollowsTheOpcodeMap : Obligations.DecodeFollowsTheOpcodeMap := by
  intro w
  refine ⟨fun i h => ?_, ?_, fun r hr r' hr' h h' => ?_⟩
  · exact ⟨i.op.row, mem_opcodeTable.2 ⟨i.op, rfl⟩, mnemonic_row i, matches_row_of_decode h⟩
  · rintro ⟨r, hr, h⟩
    obtain ⟨o, rfl⟩ := mem_opcodeTable.1 hr
    obtain ⟨hbyte, i, hi⟩ := (matches_row_iff o w).1 h
    exact ⟨i, (decode_eq hbyte).trans hi⟩
  · obtain ⟨o, rfl⟩ := mem_opcodeTable.1 hr
    obtain ⟨o', rfl⟩ := mem_opcodeTable.1 hr'
    obtain ⟨hbyte, -⟩ := (matches_row_iff o w).1 h
    obtain ⟨hbyte', -⟩ := (matches_row_iff o' w).1 h'
    rw [Opcode.byte_injective (hbyte.symm.trans hbyte')]

/-- Settles O6: a word that matches no row does not decode, and the block answers it by a refusal. -/
theorem illegalWordAnswersIllegalCmd : Obligations.IllegalWordAnswersIllegalCmd := by
  refine ⟨fun s rest w ws ha hq hc hnone => ?_, by decide, by decide⟩
  rw [step_block ha, blockMove_idle (by exact hq) (by exact hc), present]
  cases hd : decode w with
  | ok i => exact absurd (matches_row_of_decode hd) (hnone i.op.row (mem_opcodeTable.2 ⟨i.op, rfl⟩))
  | error e => exact congrArg _ (raise_idle (by exact hq) (by decide) _)

/-- Settles O7: each of the operands makes its operation ill-formed, and check (3) comes first. -/
theorem operandOutOfRangeAnswersIllegalOperand : Obligations.OperandOutOfRangeAnswersIllegalOperand := by
  intro s hq
  have refused (i : Instr) (h : ¬ i.WellFormed s.cfg = true) :
      exec i s = .next { s with rsps := s.rsps ++ [rspOf i.opcode 0x03#8 0#32] } :=
    (exec_illFormed hq (Bool.eq_false_of_not_eq_true h)).trans (congrArg _ (raise_idle hq (by decide) i.opcode))
  refine ⟨fun bus addr reg data h => refused (.bwr bus addr reg data) ?_,
    fun bus addr reg h => refused (.brd bus addr reg) ?_,
    fun dev reg mask bits shift h => refused (.wrfld dev reg mask bits shift) ?_,
    fun mode h => refused (.modewr mode) ?_, fun cw speed angle h => refused (.rot cw speed angle) ?_,
    fun ch duty h => refused (.pwmwr ch duty) ?_⟩ <;>
  · simp only [Instr.WellFormed, Bool.and_eq_true, decide_eq_true_eq]
    omega

/-- Settles O9: a word is refused with the status of its checks, which read the word and the parameters only. -/
theorem refusalDependsOnWordAndParametersOnly : Obligations.RefusalDependsOnWordAndParametersOnly := by
  intro s t w st hcfg hs ht hok _ h
  exact present_refused ht (hcfg ▸ wordRefusal_of_present hs hok h)

/-- Settles O55, by the runs of the words that each pseudo-operation stands for. -/
theorem pseudoOperationsDoWhatTheyStandFor : Obligations.PseudoOperationsDoWhatTheyStandFor := by
  intro s ws he ha hq
  refine ⟨runs_bench_modelbegin he ha hq, runs_bench_pwmwr_both he ha hq, runs_bench_pwmwr_both he ha hq,
    fun dev reg v k hc hr hdev hk hreg hwired => ?_⟩
  have hrun := runs_bench_wrfld he ha hq hc hr hwired (by decide) (lookup_eq_ok hdev hk hreg)
  rwa [newByte_whole] at hrun

/-- Settles O10, field by field. -/
theorem responseWordLayout : Obligations.ResponseWordLayout := by
  refine ⟨fun op st data => ?_, rfl, rfl, rfl, rfl, rfl, rfl⟩
  rw [responseWord_eq]
  exact ⟨rspOf_opcode _ _ _, rspOf_status _ _ _, rspOf_zero _ _ _, rspOf_data _ _ _⟩

end Sys2Proof.Machine

/-! SUPPORT. The bus phases: each by the environment's answer to its transaction, and that a write of the encoder
tracker's registers commutes with each, since none reads or writes them. -/

namespace Sys2Proof.Machine

/-! ### The transaction and its response -/

/-- The response that follows a transaction: its status from the transaction's failure, its data 0 after a failed one
(40_bus_master.md R71, R72). -/
theorem respond_transaction (op : Byte) (f : Option FailCause) {data : Word} (hdata : f ≠ none → data = 0#32)
    (s : State) :
    respond op (busStatus f.isNone) data s =
      { s with seq := none, rsps := s.rsps ++ [rspOf op (if f = none then 0x00#8 else 0x01#8) data] } := by
  cases f with
  | none => rfl
  | some c => rw [hdata (by simp)]; rfl

/-- A failed read yields the byte 0 (40_bus_master.md R72). -/
theorem byteOf_failed {r : BusReply} (h : failureOf r ≠ none) : byteOf r = 0#8 := by
  cases r with
  | done b => exact absurd rfl h
  | fail c l => rfl

section
variable {s : State} {w : Work} {reg : Byte} {r : BusReply} {rest : List BusReply} {d : Nat}
  (h : AnsweredBy s w.key reg r rest d)
include h

/-- Phase BUS of BWR, by the answer to its transaction (40_bus_master.md R71). -/
theorem bwrBus_eq (i : Instr) (data : Byte) :
    bwrBus i reg data w s =
      { s with seq := none, replies := rest, draws := d,
               busHist := s.busHist ++ [.write w.key reg data (failureOf r)],
               mem := cellsAfter s w.key reg data r,
               rsps := s.rsps ++ [rspOf i.opcode (if failureOf r = none then 0x00#8 else 0x01#8) 0#32] } := by
  rw [bwrBus, memWrite_eq data h]
  exact respond_transaction _ _ (fun _ => rfl) _

/-- Phase BUS of BRD and phase RD of RDREG, by the answer to their transaction (40_bus_master.md R72,
41_register_codec.md R81). -/
theorem readAndRespond_eq (i : Instr) :
    readAndRespond i reg w s =
      { s with seq := none, replies := rest, draws := d,
               busHist := s.busHist ++ [.read w.key reg (byteOf r) (failureOf r)],
               rsps := s.rsps ++ [rspOf i.opcode (if failureOf r = none then 0x00#8 else 0x01#8)
                                    (0#24 ++ byteOf r)] } := by
  rw [readAndRespond, memRead_eq h, zeros_append_byte]
  exact respond_transaction _ _ (fun hf => by rw [byteOf_failed hf]; rfl) _

end

/-- Phase RD of RDREG (41_register_codec.md R81). -/
theorem exec_rdreg_rd {s : State} {dev reg : Byte} {w : Work} (hq : s.seq = some ⟨.rdreg dev reg, .rd, w⟩) :
    exec (.rdreg dev reg) s = .next (readAndRespond (.rdreg dev reg) reg w s) := by
  simp [exec, execRdreg, phased, hq]

/-! ### Writes of the tracker's registers -/

/-- `s` with the registers of the encoder tracker and the tick replaced by `x`. -/
def withTracker (x : Tracker) (s : State) : State :=
  { s with count := x.count, tick := x.tick, tStart := x.tStart, tModel := x.tModel, mode := x.mode }

/-- An edge writes the tracker's registers only (42_encoder_tracker.md R90 to R92). -/
theorem edge_eq_withTracker (b : Bool) (s : State) : edge b s = withTracker (tracker (edge b s)) s := by
  rw [edge_eq]
  rfl

/-- A tick writes the tick only (60_exceptions.md R169). -/
theorem tickAdvance_eq_withTracker (s : State) : tickAdvance s = withTracker (tracker (tickAdvance s)) s := rfl

/-- What an edge writes depends on the parameters and the tracker's registers only. -/
theorem tracker_edge_congr {s t : State} (b : Bool) (hcfg : t.cfg = s.cfg) (hx : tracker t = tracker s) :
    tracker (edge b t) = tracker (edge b s) := by
  simp only [tracker, Tracker.mk.injEq] at hx
  obtain ⟨hcount, htick, hstart, hmodel, hmode⟩ := hx
  simp only [tracker, edge_eq, hcfg, hcount, htick, hstart, hmodel, hmode]

/-- What a tick writes depends on the tracker's registers only. -/
theorem tracker_tickAdvance_congr {s t : State} (hx : tracker t = tracker s) :
    tracker (tickAdvance t) = tracker (tickAdvance s) :=
  congrArg (fun y : Tracker => { y with tick := y.tick + 1#32 }) hx

/-- A phase of an operation leaves the parameters and the tracker's registers alone. -/
theorem Advanced.tracker_eq {p : InProgress} {s t : State} (h : Advanced p s t) :
    t.cfg = s.cfg ∧ tracker t = tracker s := by
  obtain ⟨q, rs, rest, d, bh, m, d0, d1, dh, rfl⟩ := h.frame
  exact ⟨rfl, rfl⟩

/-! ### A write of the tracker's registers commutes with a bus phase -/

/-- A transaction's answer does not depend on the tracker's registers. -/
theorem answeredBy_withTracker (x : Tracker) (s : State) (k : Key) (reg : Byte) (r : BusReply)
    (rest : List BusReply) (d : Nat) :
    AnsweredBy (withTracker x s) k reg r rest d ↔ AnsweredBy s k reg r rest d := Iff.rfl

section
variable (x : Tracker) (s : State)

/-- A read transaction neither reads nor writes the tracker's registers. -/
theorem memRead_withTracker (k : Key) (reg : Byte) :
    memRead k reg (withTracker x s) = ((memRead k reg s).1, withTracker x (memRead k reg s).2) := by
  have h := answeredBy_busAnswer k reg s
  rw [memRead_eq h, memRead_eq ((answeredBy_withTracker x ..).2 h)]
  rfl

/-- A write transaction neither reads nor writes the tracker's registers. -/
theorem memWrite_withTracker (k : Key) (reg v : Byte) :
    memWrite k reg v (withTracker x s) = ((memWrite k reg v s).1, withTracker x (memWrite k reg v s).2) := by
  have h := answeredBy_busAnswer k reg s
  rw [memWrite_eq v h, memWrite_eq v ((answeredBy_withTracker x ..).2 h)]
  rfl

/-- Phase BUS of BWR neither reads nor writes the tracker's registers. -/
theorem bwrBus_withTracker (i : Instr) (reg data : Byte) (w : Work) :
    bwrBus i reg data w (withTracker x s) = withTracker x (bwrBus i reg data w s) := by
  rw [bwrBus, memWrite_withTracker]
  rfl

/-- Phase BUS of BRD and phase RD of RDREG neither read nor write the tracker's registers. -/
theorem readAndRespond_withTracker (i : Instr) (reg : Byte) (w : Work) :
    readAndRespond i reg w (withTracker x s) = withTracker x (readAndRespond i reg w s) := by
  rw [readAndRespond, memRead_withTracker]
  rfl

/-- Phase RD of WRFLD neither reads nor writes the tracker's registers: its policy after a failed read is a parameter
(41_register_codec.md R82). -/
theorem wrfldRd_withTracker (i : Instr) (reg : Byte) (w : Work) :
    wrfldRd i reg w (withTracker x s) = withTracker x (wrfldRd i reg w s) := by
  simp only [wrfldRd, memRead_withTracker, apply_ite (withTracker x)]
  rfl

/-- Phase WR of WRFLD neither reads nor writes the tracker's registers. -/
theorem wrfldWr_withTracker (i : Instr) (reg mask bits shift : Byte) (w : Work) :
    wrfldWr i reg mask bits shift w (withTracker x s) = withTracker x (wrfldWr i reg mask bits shift w s) := by
  rw [wrfldWr, memWrite_withTracker]
  rfl

end

/-- A write of the tracker's registers before a phase of a bus or codec operation and the same write after it give the
same state (40_bus_master.md R78). -/
theorem exec_withTracker {s t : State} {p : InProgress} (hq : s.seq = some p)
    (hp : p.ph = .bus ∨ p.ph = .rd ∨ p.ph = .wr) (h : exec p.op s = .next t) (x : Tracker) :
    exec p.op (withTracker x s) = .next (withTracker x t) := by
  have hadv := exec_busy hq h
  obtain ⟨i, ph, w⟩ := p
  have hqx : (withTracker x s).seq = some ⟨i, ph, w⟩ := hq
  unfold Advanced at hadv
  dsimp only at hadv hp ⊢
  split at hadv
  case h_1 => rw [hadv, exec_bwr_bus hqx, bwrBus_withTracker]
  case h_2 => rw [hadv, exec_brd_bus hqx, readAndRespond_withTracker]
  case h_3 => rw [hadv, exec_rdreg_rd hqx, readAndRespond_withTracker]
  case h_4 => rw [hadv, exec_wrfld_rd hqx, wrfldRd_withTracker]
  case h_5 => rw [hadv, exec_wrfld_wr hqx, wrfldWr_withTracker]
  case h_6 | h_7 | h_8 | h_9 => simp at hp
  case h_10 => exact hadv.elim

end Sys2Proof.Machine

/-! SUPPORT. The statements of 40_bus_master.md: the frames on the wires, the acceptance and the transaction of BWR and
BRD, the events that fall inside a bus phase, and the words of the examples. -/

namespace Sys2Proof.Machine

/-! ### Frames -/

/-- In a frame that opens with the pointer phase every acknowledge bit is ACK exactly when the transaction did not fail,
if the rest of the frame has that property. -/
theorem allAcknowledged_pointerPhase (k : Key) (reg : Byte) {rest : List WireItem} {f : Option FailCause}
    (h : allAcknowledged rest = f.isNone) : allAcknowledged (pointerPhase k reg rest f) = f.isNone := by
  unfold pointerPhase
  split
  · rfl
  · rfl
  · exact h

/-- Settles O31: the slave's bits after the pointer phase are ACK, or the last of them is the NACK of the failure. -/
theorem wireFrames : Obligations.WireFrames := by
  refine ⟨fun restart x g h => ?_, fun _ _ _ _ => rfl, fun _ _ _ => ⟨rfl, rfl⟩⟩
  unfold BusTxn.frame at h
  split at h
  case h_1 | h_2 => cases h
  case h_3 k reg data f _ =>
    obtain rfl := Option.some.inj h
    exact allAcknowledged_pointerPhase k reg (by cases f <;> rfl)
  case h_4 k reg byte f _ =>
    obtain rfl := Option.some.inj h
    exact allAcknowledged_pointerPhase k reg (by cases restart <;> cases f <;> rfl)

/-! ### BWR and BRD -/

/-- Settles O18: both pass check (3) and enter phase BUS; `addr[6:0]` is the field the spec names. -/
theorem busOperationsAreAccepted : Obligations.BusOperationsAreAccepted := by
  intro s bus addr reg hq hbus haddr
  exact ⟨exec_bwr_idle hq hbus haddr reg, exec_brd_idle hq hbus haddr reg⟩

/-- Settles O20: phase BUS of BWR is one write transaction with the latched key, then its response. -/
theorem bwrWritesOneByte : Obligations.BwrWritesOneByte := by
  intro s bus addr reg data w r rest d hq h
  exact (exec_bwr_bus hq).trans (congrArg _ (bwrBus_eq h _ data))

/-- Settles O21: phase BUS of BRD is one read transaction with the latched key, then its response. -/
theorem brdReadsOneByte : Obligations.BrdReadsOneByte := by
  intro s bus addr reg w r rest d hq h
  exact (exec_brd_bus hq).trans (congrArg _ (readAndRespond_eq h _))

/-! ### Events -/

/-- Settles O33: an edge and a tick write the tracker's registers, which no bus phase reads or writes. -/
theorem eventsCommuteWithBusSteps : Obligations.EventsCommuteWithBusSteps := by
  intro s t p b hq hp h
  obtain ⟨hcfg, hx⟩ := (exec_busy hq h).tracker_eq
  constructor
  · rw [edge_eq_withTracker b s, edge_eq_withTracker b t, tracker_edge_congr b hcfg hx]
    exact exec_withTracker hq hp h _
  · rw [tickAdvance_eq_withTracker s, tickAdvance_eq_withTracker t, tracker_tickAdvance_congr hx]
    exact exec_withTracker hq hp h _

/-! ### Example words -/

/-- A word that an operation encodes to decodes to that operation. -/
theorem decode_of_encode_eq {w : CmdWord} {i : Instr} (h : encode i = w) : decode w = .ok i :=
  h ▸ decode_encode i

/-- Settles O4: each word is the encoding of its operation. -/
theorem exampleWordsDecode : Obligations.ExampleWordsDecode :=
  ⟨decode_of_encode_eq (by decide), decode_of_encode_eq (by decide), decode_of_encode_eq (by decide),
    decode_of_encode_eq (by decide), decode_of_encode_eq (by decide), decode_of_encode_eq (by decide),
    decode_of_encode_eq (by decide)⟩

end Sys2Proof.Machine

/-! SUPPORT. The register-field codec: the checks of R80 on an idle block, the byte WRFLD writes, and each phase of
WRFLD by the environment's answer to its transaction. -/

namespace Sys2Proof.Machine

/-! ### The lookup -/

/-- A device id outside 1 to 5 is refused (41_register_codec.md R80). -/
theorem lookupRefusal_noDevice (c : Params) {dev : Byte} (h : dev.toNat < 1 ∨ 5 < dev.toNat) (reg : Byte) :
    lookupRefusal c dev reg = some .noDevice := by
  unfold lookupRefusal lookup
  obtain h | h := h
  · rw [if_pos (by omega)]
  · rw [if_neg (by omega), Vector.getElem?_eq_none (by omega)]

/-- A register outside `LEGAL_REGS` is refused for every device of the table (41_register_codec.md R80). -/
theorem lookupRefusal_illegalReg {c : Params} {dev reg : Byte} {k : Key} (hdev : 1 ≤ dev.toNat)
    (hk : c.devTab[dev.toNat - 1]? = some k) (hreg : reg ∉ c.legalRegs) :
    lookupRefusal c dev reg = some .illegalReg := by
  simp only [lookupRefusal, lookup, if_neg (show ¬ dev.toNat = 0 by omega), hk, if_neg hreg]

/-! ### An idle block -/

/-- With its operands in range and the lookup passed, a codec operation latches the key (41_register_codec.md R80). -/
theorem acceptCodec_accepted {i : Instr} {s : State} {dev reg : Byte} {k : Key} (hw : i.WellFormed s.cfg = true)
    (hk : lookup s.cfg dev reg = .ok k) :
    acceptCodec i dev reg s = enter i .rd { Work.fresh with key := k } s := by
  simp only [acceptCodec, accept, hw, if_true, hk]

/-- An idle block checks an RDREG presented to it. -/
theorem exec_rdreg_idle {s : State} (hq : s.seq = none) (dev reg : Byte) :
    exec (.rdreg dev reg) s = .next (acceptCodec (.rdreg dev reg) dev reg s) := by
  simp only [exec, execRdreg, phased, hq]

/-- An idle block checks a WRFLD presented to it. -/
theorem exec_wrfld_idle {s : State} (hq : s.seq = none) (dev reg mask bits shift : Byte) :
    exec (.wrfld dev reg mask bits shift) s = .next (acceptCodec (.wrfld dev reg mask bits shift) dev reg s) := by
  simp only [exec, execWrfld, phased, hq]

/-- A WRFLD is well formed when its shift is below 8 (30_encoding.md R55). -/
theorem wrfld_wellFormed {shift : Byte} (h : shift.toNat < 8) (c : Params) (dev reg mask bits : Byte) :
    (Instr.wrfld dev reg mask bits shift).WellFormed c = true := decide_eq_true h

/-- A refusal by the lookup is the same for RDREG and for a WRFLD with its shift in range: the response, and nothing
else changes (41_register_codec.md R80). -/
theorem exec_codec_refused {s : State} {dev reg : Byte} {st : Status} (hq : s.seq = none) (hst : st ≠ .ok)
    (h : lookupRefusal s.cfg dev reg = some st) :
    exec (.rdreg dev reg) s = .next { s with rsps := s.rsps ++ [rspOf 0x20#8 st.code 0#32] } ∧
    ∀ mask bits shift, shift.toNat < 8 →
      exec (.wrfld dev reg mask bits shift) s =
        .next { s with rsps := s.rsps ++ [rspOf 0x21#8 st.code 0#32] } := by
  refine ⟨?_, fun mask bits shift hshift => ?_⟩
  · rw [exec_rdreg_idle hq, acceptCodec_refused rfl h, raise_idle hq hst]
    rfl
  · rw [exec_wrfld_idle hq, acceptCodec_refused (wrfld_wellFormed hshift ..) h, raise_idle hq hst]
    rfl

/-! ### The byte WRFLD writes -/

/-- The shifted field of `newByte` as R82 writes it: `trunc_8(bits << shift)`. -/
theorem newByte_eq (old mask bits shift : Byte) :
    newByte old mask bits shift = (old &&& mask) ||| BitVec.ofNat 8 (bits.toNat * 2 ^ shift.toNat) := by
  have hfield : bits <<< shift.toNat = BitVec.ofNat 8 (bits.toNat * 2 ^ shift.toNat) :=
    BitVec.eq_of_toNat_eq (by rw [BitVec.toNat_shiftLeft, Nat.shiftLeft_eq, BitVec.toNat_ofNat])
  rw [newByte, hfield]

/-! ### The phases of WRFLD -/

/-- A failed transaction's `ok` is false (40_bus_master.md R72). -/
theorem isNone_of_failed {r : BusReply} (h : failureOf r ≠ none) : (failureOf r).isNone = false :=
  Option.isNone_eq_false_iff.2 (Option.isSome_iff_ne_none.2 h)

section
variable {s : State} {w : Work} {reg : Byte} {r : BusReply} {rest : List BusReply} {d : Nat}
  (h : AnsweredBy s w.key reg r rest d)
include h

/-- Phase RD of WRFLD ends the operation after a failed read under `abort` (41_register_codec.md R82). -/
theorem wrfldRd_aborts (hf : failureOf r ≠ none) (hp : s.cfg.rmwOnReadFail = .abort) (i : Instr) :
    wrfldRd i reg w s =
      { s with seq := none, replies := rest, draws := d,
               busHist := s.busHist ++ [.read w.key reg 0#8 (failureOf r)],
               rsps := s.rsps ++ [rspOf i.opcode 0x01#8 0#32] } := by
  rw [wrfldRd, memRead_eq h, if_pos ⟨isNone_of_failed hf, hp⟩, respond_notOk (by decide), byteOf_failed hf]
  rfl

/-- Phase RD of WRFLD goes on to the write phase after a successful read, and under `proceed_with_zero` after any
(41_register_codec.md R82, R83 (g)). -/
theorem wrfldRd_proceeds (hp : failureOf r = none ∨ s.cfg.rmwOnReadFail = .proceedWithZero) (i : Instr) :
    wrfldRd i reg w s =
      { s with seq := some ⟨i, .wr, { w with old := byteOf r, readOk := (failureOf r).isNone }⟩,
               replies := rest, draws := d,
               busHist := s.busHist ++ [.read w.key reg (byteOf r) (failureOf r)] } := by
  have hgo : ¬ ((failureOf r).isNone = false ∧ s.cfg.rmwOnReadFail = .abort) := by
    rintro ⟨hfail, habort⟩
    obtain hp | hp := hp
    · simp [hp] at hfail
    · simp [hp] at habort
  rw [wrfldRd, memRead_eq h, if_neg hgo]
  rfl

/-- Phase WR of WRFLD: its status needs both transactions (41_register_codec.md R82). -/
theorem wrfldWr_eq (i : Instr) (mask bits shift : Byte) :
    wrfldWr i reg mask bits shift w s =
      { s with seq := none, replies := rest, draws := d,
               busHist := s.busHist ++ [.write w.key reg (newByte w.old mask bits shift) (failureOf r)],
               mem := cellsAfter s w.key reg (newByte w.old mask bits shift) r,
               rsps := s.rsps ++
                 [rspOf i.opcode (if failureOf r = none ∧ w.readOk = true then 0x00#8 else 0x01#8) 0#32] } := by
  have hok : ((failureOf r).isNone && w.readOk) = true ↔ failureOf r = none ∧ w.readOk = true := by
    rw [Bool.and_eq_true, Option.isNone_iff_eq_none]
  rw [wrfldWr, memWrite_eq _ h, respond_bus]
  simp only [hok, apply_ite (fun st => rspOf i.opcode st 0#32)]

end

end Sys2Proof.Machine

/-! SUPPORT. The statements of 41_register_codec.md: the lookup and the acceptance of RDREG and WRFLD, their phases, and
the byte that WRFLD writes. -/

namespace Sys2Proof.Machine

/-- Settles O8: with the operands in range the lookup alone decides, in the same way for both operations. -/
theorem codecLookup : Obligations.CodecLookup := by
  intro s dev reg hq
  exact ⟨fun hdev => exec_codec_refused (st := .noDevice) hq (by decide) (lookupRefusal_noDevice s.cfg hdev reg),
    fun _ hdev hk hreg => exec_codec_refused (st := .illegalReg) hq (by decide) (lookupRefusal_illegalReg hdev hk hreg),
    fun _ => lookup_eq_ok⟩

/-- Settles O19: both pass checks (3) to (5) and enter phase RD. -/
theorem codecOperationsAreAccepted : Obligations.CodecOperationsAreAccepted := by
  intro s dev reg k hq hdev hk hreg
  have hlookup := lookup_eq_ok hdev hk hreg
  exact ⟨(exec_rdreg_idle hq ..).trans (congrArg _ (acceptCodec_accepted rfl hlookup)),
    fun _ _ _ hshift => (exec_wrfld_idle hq ..).trans
      (congrArg _ (acceptCodec_accepted (wrfld_wellFormed hshift ..) hlookup))⟩

/-- Settles O22: phase RD of RDREG is one read transaction with the latched key, then its response. -/
theorem rdregReadsOneByte : Obligations.RdregReadsOneByte := by
  intro s dev reg w r rest d hq h
  exact (exec_rdreg_rd hq).trans (congrArg _ (readAndRespond_eq h _))

/-- Settles O23, by whether the read failed and by the policy after a failed read. -/
theorem wrfldReadPhase : Obligations.WrfldReadPhase := by
  intro s dev reg mask bits shift w r rest d hq h
  rw [exec_wrfld_rd hq]
  refine ⟨fun hf hp => congrArg _ (wrfldRd_aborts h hf hp _), fun hf hp => ?_, ?_⟩
  · rw [wrfldRd_proceeds h (.inr hp), byteOf_failed hf, isNone_of_failed hf]
  · rintro byte rfl
    exact congrArg _ (wrfldRd_proceeds h (.inl rfl) _)

/-- Settles O24: phase WR is one write transaction of `newByte` with the latched key, then its response. -/
theorem wrfldWritePhase : Obligations.WrfldWritePhase := by
  intro s dev reg mask bits shift w r rest d hq h
  rw [exec_wrfld_wr hq, wrfldWr_eq h, newByte_eq]
  rfl

/-- Settles O25: a left shift takes bit `n` from bit `n - shift` and fills with zeros below. -/
theorem wrfldByteBitByBit : Obligations.WrfldByteBitByBit := by
  intro old mask bits shift n _ hn
  have hfield : (bits <<< shift.toNat).getLsbD n = (decide (shift.toNat ≤ n) && bits.getLsbD (n - shift.toNat)) := by
    rw [BitVec.getLsbD_shiftLeft, decide_eq_true hn, Bool.true_and, ← decide_not, decide_eq_decide.2 Nat.not_lt]
  rw [newByte, BitVec.getLsbD_or, BitVec.getLsbD_and, hfield]

/-- Settles O28, by WRFLD's run from its word: acceptance, read phase, write phase. -/
theorem wrfldUpdatesTheSlaveField : Obligations.WrfldUpdatesTheSlaveField := by
  intro s dev reg mask bits shift k ws he ha hr hq hc hshift hdev hk hreg hwired
  exact runs_bench_wrfld he ha hq hc hr hwired hshift (lookup_eq_ok hdev hk hreg)

end Sys2Proof.Machine

/-! SUPPORT. The encoder tracker: what a one-step operation answers on an idle block, and what an edge does at a
revolution tick and between two of them. -/

namespace Sys2Proof.Machine

/-! ### Operations of one step -/

/-- An idle block answers an operation of one step that its checks do not refuse: `u` is the state it leaves before its
response. -/
theorem exec_answered {i : Instr} {s u : State} {data : Word} (hq : s.seq = none) (hr : refusal s.cfg i = none)
    (hu : u.seq = none) (hacc : ∀ t, Accepted i s t → t = respond i.opcode .ok data u) :
    exec i s = .next { u with rsps := u.rsps ++ [rspOf i.opcode 0x00#8 data] } := by
  obtain ⟨t, ht, hat⟩ := exec_accepted hq hr
  rw [ht, hacc t hat, respond_ok_idle hu]

/-- The 32-bit data of a response that carries `MODE` (42_encoder_tracker.md R97). -/
theorem zeros_append_mode (m : BitVec 3) : 0#29 ++ m = m.setWidth 32 :=
  (BitVec.setWidth_eq_append (by decide)).symm

/-- MODEWR passes its checks when its operand names one of the six modes (30_encoding.md R55). -/
theorem modewr_not_refused (c : Params) {mode : Byte} (h : mode.toNat < 6) : refusal c (.modewr mode) = none := by
  simp only [refusal, Instr.WellFormed, decide_eq_true h, if_true]

/-! ### One edge -/

/-- A fixed turn of the encoder is the edge handler (10_state.md R26). -/
theorem step_edge {s : State} {b : Bool} {rest : List Turn} (ha : s.agenda = .edge b :: rest) :
    step s = .next (edge b { s with agenda := rest }) := by
  rw [step, nextTurn_cons ha, takeTurn]

/-- A fixed turn of the tick generator advances the tick (10_state.md R26). -/
theorem step_fixed_tick {s : State} {rest : List Turn} (ha : s.agenda = .tick :: rest) :
    step s = .next (tickAdvance { s with agenda := rest }) := by
  rw [step, nextTurn_cons ha, takeTurn]

/-- `COUNT` is a multiple of `REV_PULSES` when its low four bits are 0 (42_encoder_tracker.md R91). -/
theorem atRevolution_iff (c : Word) : atRevolution c = true ↔ c.extractLsb' 0 4 = 0#4 := by
  rw [atRevolution, beq_iff_eq, BitVec.toNat_eq, toNat_field, Nat.pow_zero, Nat.div_one]
  rfl

/-- An edge that is no revolution tick in mode Model writes `COUNT` only (42_encoder_tracker.md R90). -/
theorem edge_between_revolutions {b : Bool} {s : State}
    (h : ¬ (atRevolution (countAfter s.cfg b s.count) = true ∧ s.mode = modeModel)) :
    edge b s = { s with count := countAfter s.cfg b s.count } := by
  simp only [edge_eq, if_neg h]

/-- A revolution tick in mode Model records the interval and ends the modelling (42_encoder_tracker.md R92). -/
theorem edge_at_revolution {b : Bool} {s : State} (h : atRevolution (countAfter s.cfg b s.count) = true)
    (hm : s.mode = modeModel) :
    edge b s = { s with count := countAfter s.cfg b s.count, tModel := s.tick - s.tStart, mode := modeModeled } := by
  simp only [edge_eq, if_pos (And.intro h hm)]

/-! ### Edges one way -/

/-- `COUNT` after `n` edges from 0 at each of which ENC_B has the level `b` (42_encoder_tracker.md R90). -/
def pulses (p : Params) (b : Bool) (n : Nat) : Word :=
  if b = p.encIncLevel then BitVec.ofNat 32 n else 0#32 - BitVec.ofNat 32 n

/-- One more edge the same way. -/
theorem countAfter_pulses (p : Params) (b : Bool) (n : Nat) : countAfter p b (pulses p b n) = pulses p b (n + 1) := by
  unfold countAfter pulses
  split
  · exact (BitVec.ofNat_add n 1).symm
  · rw [BitVec.ofNat_add, BitVec.sub_sub]

/-- Counting one way from 0 meets a multiple of `REV_PULSES` at every sixteenth edge, also across the wrap-around
(42_encoder_tracker.md R91). -/
theorem atRevolution_pulses (p : Params) (b : Bool) (n : Nat) : atRevolution (pulses p b n) = true ↔ n % 16 = 0 := by
  rw [atRevolution, beq_iff_eq, show Config.revPulses = 16 from rfl]
  unfold pulses
  split
  · rw [BitVec.toNat_ofNat]
    omega
  · rw [BitVec.toNat_sub, BitVec.toNat_ofNat, BitVec.toNat_ofNat]
    omega

section
variable {s : State} {b : Bool} {n : Nat} {rest : List Turn} (ha : s.agenda = .edge b :: rest)
  (hc : s.count = pulses s.cfg b n)
include ha hc

/-- An edge that is not the sixteenth one way moves `COUNT` only (42_encoder_tracker.md R90, R91). -/
theorem step_edge_between_revolutions (hn : (n + 1) % 16 ≠ 0) :
    step s = .next { s with agenda := rest, count := pulses s.cfg b (n + 1) } := by
  have hcount : countAfter s.cfg b s.count = pulses s.cfg b (n + 1) := by rw [hc, countAfter_pulses]
  have hrev : ¬ atRevolution (countAfter s.cfg b s.count) = true := by rwa [hcount, atRevolution_pulses]
  rw [step_edge ha, edge_between_revolutions (by exact fun h => hrev h.1), hcount]

/-- In mode Model every sixteenth edge one way records the interval and ends the modelling
(42_encoder_tracker.md R91, R92). -/
theorem step_edge_at_revolution (hm : s.mode = modeModel) (hn : (n + 1) % 16 = 0) :
    step s = .next { s with agenda := rest, count := pulses s.cfg b (n + 1), tModel := s.tick - s.tStart,
                            mode := modeModeled } := by
  have hcount : countAfter s.cfg b s.count = pulses s.cfg b (n + 1) := by rw [hc, countAfter_pulses]
  have hrev : atRevolution (countAfter s.cfg b s.count) = true := by rwa [hcount, atRevolution_pulses]
  rw [step_edge ha, edge_at_revolution (by exact hrev) (by exact hm), hcount]

end

/-- Fewer than sixteen edges one way from 0 and any ticks among them move `COUNT` and the tick, and nothing else: no
edge among them is a revolution tick. -/
theorem runs_pulses {b : Bool} {rest : List Turn} (l : List Turn) (hl : ∀ x ∈ l, x = .edge b ∨ x = .tick) {s : State}
    {n : Nat} (ha : s.agenda = l ++ rest) (hc : s.count = pulses s.cfg b n) (hn : n + l.count (.edge b) < 16) :
    runs l.length s = .next { s with agenda := rest, count := pulses s.cfg b (n + l.count (.edge b)),
                                     tick := s.tick + BitVec.ofNat 32 (l.count .tick) } := by
  induction l generalizing s n with
  | nil =>
    obtain rfl : s.agenda = rest := ha
    simp [runs, ← hc]
  | cons x l ih =>
    obtain ⟨hx, hl'⟩ := List.forall_mem_cons.1 hl
    obtain rfl | rfl := hx
    · rw [List.count_cons_self] at hn
      rw [List.length_cons, runs_succ (step_edge_between_revolutions ha hc (by omega)),
        ih hl' (n := n + 1) (by rfl) (by rfl) (by omega)]
      simp [Nat.add_assoc, Nat.add_comm 1]
    · have hedges : (Turn.tick :: l).count (.edge b) = l.count (.edge b) := by simp
      rw [List.length_cons, runs_succ (step_fixed_tick ha), ih hl' (by rfl) (by exact hc) (hedges ▸ hn), hedges]
      simp [tickAdvance, BitVec.ofNat_add, BitVec.add_assoc, BitVec.add_comm 1#32]

end Sys2Proof.Machine

/-! SUPPORT. The statements of 42_encoder_tracker.md: the edge handler, the sixteen pulses that end modelling, and the
operations on the state the tracker shares with the host. -/

namespace Sys2Proof.Machine

/-- Settles O34, by whether the edge is a revolution tick in mode Model. -/
theorem edgeHandler : Obligations.EdgeHandler := by
  rintro s b rest c ha rfl
  rw [← atRevolution_iff, step_edge ha]
  exact ⟨fun h => congrArg _ (edge_between_revolutions h), fun h hm => congrArg _ (edge_at_revolution h hm)⟩

/-- Settles O35: fifteen edges one way meet no revolution tick, and the sixteenth is one. -/
theorem sixteenPulsesEndModelling : Obligations.SixteenPulsesEndModelling := by
  intro s l rest b hm hc hl h15 ha
  have hzero : s.count = pulses s.cfg b 0 := by simp [hc, pulses]
  have hfifteen := runs_pulses l hl ha hzero (by omega)
  rw [h15] at hfifteen
  exact ⟨⟨_, hfifteen, hm, rfl⟩, _, (runs_add _ 1 hfifteen).trans (runs_succ (step_edge_at_revolution
    (n := 15) (by rfl) (by rfl) (by exact hm) (by rfl)) 0), rfl, rfl, rfl⟩

/-- Settles O11: the snapshot is the response's data, and nothing is written. -/
theorem encrdAnswersCount : Obligations.EncrdAnswersCount :=
  fun _ hq => exec_answered hq rfl hq fun _ h => h

/-- Settles O12: the clear is no edge, so it raises no revolution tick. -/
theorem encclrClearsCount : Obligations.EncclrClearsCount :=
  fun _ hq => exec_answered (i := .encclr) hq rfl (by exact hq) fun _ h => h

/-- Settles O13: the tick is written to `T_START` before the response. -/
theorem tmarkLatchesTick : Obligations.TmarkLatchesTick :=
  fun _ hq => exec_answered (i := .tmark) hq rfl (by exact hq) fun _ h => h

/-- Settles O14: the interval is the response's data, and nothing is written. -/
theorem tmrdAnswersInterval : Obligations.TmrdAnswersInterval :=
  fun _ hq => exec_answered hq rfl hq fun _ h => h

/-- Settles O15: the zero extension of `MODE` is 29 zero bits before it. -/
theorem moderdAnswersMode : Obligations.ModerdAnswersMode := by
  intro s hq
  rw [zeros_append_mode]
  exact exec_answered hq rfl hq fun _ h => h

/-- Settles O16: a named mode is written as its low three bits; the refusal is the one of every operand out of range. -/
theorem modewrWritesMode : Obligations.ModewrWritesMode := by
  intro s mode hq
  obtain ⟨-, -, -, hrefused, -, -⟩ := operandOutOfRangeAnswersIllegalOperand s hq
  refine ⟨fun hmode => ?_, hrefused mode⟩
  have hlow : modeOf mode = mode.extractLsb' 0 3 := BitVec.setWidth_eq_extractLsb' (by decide)
  rw [← hlow]
  exact exec_answered hq (modewr_not_refused s.cfg hmode) (by exact hq) fun _ h => h

end Sys2Proof.Machine

/-! SUPPORT. The rotation controller: its numbers (delta, target, result bits), the phases of ROT, and what a step and a
run do to the duty history while ROT is in progress. -/

namespace Sys2Proof.Machine

/-! ### The numbers of ROT -/

/-- The pulse delta is the absolute value of the movement modulo 2^32 (43_rotation_controller.md R114). -/
theorem delta_eq_abs (start cur : Word) : delta start cur = (cur - start).abs := by
  rw [delta, BitVec.zero_sub]
  rfl

/-- The absolute value of a word as a number is that of its signed reading, also at the most negative word. -/
theorem toNat_abs_eq_natAbs_toInt (d : Word) : d.abs.toNat = d.toInt.natAbs := by
  have hd := d.isLt
  rw [BitVec.toNat_abs, BitVec.toInt_eq_msb_cond]
  split <;> omega

/-- The absolute value of a movement does not depend on its direction. -/
theorem abs_neg_word (d : Word) : (-d).abs = d.abs := by
  have hd := d.isLt
  apply BitVec.eq_of_toNat_eq
  simp only [BitVec.toNat_abs, BitVec.msb_eq_decide, BitVec.toNat_neg, decide_eq_true_eq]
  split <;> split <;> omega

/-- The target in lowest terms (43_rotation_controller.md R113). -/
theorem targetNat_eq (a : Nat) : targetNat a = (896 * a + 589824) / 1179648 := by
  rw [targetNat, Config.ppr]
  omega

/-- The target of an angle fits its register (43_rotation_controller.md R113). -/
theorem toNat_target (angle : Word) : (target angle).toNat = (896 * angle.toNat + 589824) / 1179648 := by
  have ha := angle.isLt
  rw [target, BitVec.toNat_ofNat, targetNat_eq]
  omega

/-- The result bits as numbers: 1 for `REACHED`, 2 for `TIMEOUT` (43_rotation_controller.md R118). -/
theorem rotResult_eq (rch tmo : Bool) :
    rotResult rch tmo = (if rch = true then 1#32 else 0#32) + (if tmo = true then 2#32 else 0#32) := by
  revert rch tmo
  decide

/-- Bit 1 of the result is `TIMEOUT` (43_rotation_controller.md R118). -/
theorem rotResult_timeout (rch tmo : Bool) : (rotResult rch tmo).getLsbD 1 = tmo := by
  revert rch tmo
  decide

/-! ### The phases of ROT -/

/-- ROT passes its checks when its direction is 0 or 1 (30_encoding.md R55). -/
theorem rot_not_refused (c : Params) {cw : Byte} (h : cw.toNat < 2) (speed : Byte) (angle : Word) :
    refusal c (.rot cw speed angle) = none := by
  simp only [refusal, Instr.WellFormed, decide_eq_true h, if_true]

/-- An operation in one of its phases goes to the one state that its phase allows. -/
theorem exec_advanced {p : InProgress} {s u : State} (hq : s.seq = some p) (hp : hasPhase p.op p.ph = true)
    (hadv : ∀ t, Advanced p s t → t = u) : exec p.op s = .next u := by
  obtain ⟨t, ht⟩ := exec_advances hq hp
  rw [ht, hadv t (exec_busy hq ht)]

/-- Phase R2 takes the current snapshot (43_rotation_controller.md R112). -/
theorem exec_rot_r2 {s : State} {cw speed : Byte} {angle : Word} {w : Work}
    (hq : s.seq = some ⟨.rot cw speed angle, .r2, w⟩) :
    exec (.rot cw speed angle) s = .next (enter (.rot cw speed angle) .r3 { w with cur := s.count } s) :=
  exec_advanced hq rfl fun _ h => h

/-- Phase R3 decides (43_rotation_controller.md R112). -/
theorem exec_rot_r3 {s : State} {cw speed : Byte} {angle : Word} {w : Work}
    (hq : s.seq = some ⟨.rot cw speed angle, .r3, w⟩) :
    exec (.rot cw speed angle) s = .next (rotR3 (.rot cw speed angle) cw speed w s) :=
  exec_advanced hq rfl fun _ h => h

section
variable {w : Work} {s : State}

/-- Phase R3 brakes and answers when the target is reached or the time is over (43_rotation_controller.md R118). -/
theorem rotR3_brakes (h : w.target.toNat ≤ (delta w.start w.cur).toNat ∨ 1000 ≤ (s.tick - w.t0).toNat) (i : Instr)
    (cw speed : Byte) :
    rotR3 i cw speed w s =
      { s with seq := none, duty0 := 255#8, duty1 := 255#8,
               dutyHist := s.dutyHist ++ [⟨.ch0, 255#8⟩, ⟨.ch1, 255#8⟩],
               rsps := s.rsps ++ [rspOf i.opcode 0x00#8
                 (rotResult (reached w.target (delta w.start w.cur)) (timedOut w.t0 s.tick))] } := by
  rw [← reached_iff, ← timedOut_iff, ← Bool.or_eq_true] at h
  rw [rotR3, if_pos h, brake_eq, respond_ok]

/-- Phase R3 drives on and records the remaining error while the target is not reached and the time not over
(43_rotation_controller.md R112, R115, R117). -/
theorem rotR3_drives (hr : (delta w.start w.cur).toNat < w.target.toNat) (ht : (s.tick - w.t0).toNat < 1000) (i : Instr)
    (cw speed : Byte) :
    rotR3 i cw speed w s =
      enter i .r2 { w with delta := delta w.start w.cur, err := w.target - delta w.start w.cur }
        (drive cw speed s) := by
  have herr : remaining w.target (delta w.start w.cur) = w.target - delta w.start w.cur :=
    if_neg (BitVec.not_le.2 hr)
  have hgo : ¬ (reached w.target (delta w.start w.cur) || timedOut w.t0 s.tick) = true := by
    rw [Bool.or_eq_true, reached_iff, timedOut_iff]
    omega
  rw [rotR3, if_neg hgo, herr]

end

/-! ### The duty history -/

/-- The events of the drive pattern, channel 0 first (43_rotation_controller.md R117). -/
def driveEvents (cw speed : Byte) : List PwmSet :=
  if cw = 1#8 then [⟨.ch0, speed⟩, ⟨.ch1, 0#8⟩] else [⟨.ch0, 0#8⟩, ⟨.ch1, speed⟩]

/-- The events of the braking pattern, channel 0 first (43_rotation_controller.md R118). -/
def brakeEvents : List PwmSet := [⟨.ch0, 255#8⟩, ⟨.ch1, 255#8⟩]

/-- The drive pattern emits its events. -/
theorem drive_dutyHist (cw speed : Byte) (s : State) :
    (drive cw speed s).dutyHist = s.dutyHist ++ driveEvents cw speed := by
  rw [drive_eq, driveEvents]

/-- What a step does from a state in which ROT is in phase `ph`: it emits nothing and ROT goes on, or it is phase R3 and
emits the drive pattern and goes round, or the braking pattern and ends. -/
inductive RotStep (cw speed : Byte) (angle : Word) (ph : Phase) (s t : State) : Prop
  | waits (ph' : Phase) (w' : Work) (hh : t.dutyHist = s.dutyHist) (hq : t.seq = some ⟨.rot cw speed angle, ph', w'⟩)
  | drives (w' : Work) (hp : ph = .r3) (hturn : (nextTurn s).1 = .block)
      (hh : t.dutyHist = s.dutyHist ++ driveEvents cw speed) (hq : t.seq = some ⟨.rot cw speed angle, .r2, w'⟩)
  | brakes (hp : ph = .r3) (hturn : (nextTurn s).1 = .block) (hh : t.dutyHist = s.dutyHist ++ brakeEvents)
      (hq : t.seq = none)

/-- A step during ROT is an event, which leaves `SEQ` and the duties alone, or a phase of ROT, of which only R3 emits
(43_rotation_controller.md R112, R119). -/
theorem step_rot {s t : State} {cw speed : Byte} {angle : Word} {ph : Phase} {w : Work}
    (hq : s.seq = some ⟨.rot cw speed angle, ph, w⟩) (h : step s = .next t) : RotStep cw speed angle ph s t := by
  cases stepCase h with
  | event he =>
    obtain ⟨c, tk, tm, md, m, ag, d, rfl⟩ := he.frame
    exact .waits ph w rfl hq
  | silent _ _ _ hidle | present _ _ _ _ _ _ hidle => simp [hq] at hidle
  | advance p ag d hturn hp ha =>
    obtain rfl : p = ⟨.rot cw speed angle, ph, w⟩ := Option.some.inj (hp.symm.trans hq)
    cases ph with
    | r0 | r1 | r2 => exact (show t = enter _ _ _ _ from ha) ▸ .waits _ _ rfl rfl
    | r3 =>
      obtain ⟨data, he⟩ | ⟨w', he, -⟩ := rotR3_cases (.rot cw speed angle) cw speed w
        { s with agenda := ag, draws := d }
      · obtain rfl := ha.trans he
        exact .brakes rfl hturn (by simp [brakeEvents]) rfl
      · obtain rfl := ha.trans he
        exact .drives w' rfl hturn (drive_dutyHist cw speed _) rfl
    | bus | rd | wr => exact ha.elim

/-- A run of at least one step is a step and the rest of the run. -/
theorem runs_succ_cases {n : Nat} {s t : State} (h : runs (n + 1) s = .next t) :
    ∃ u, step s = .next u ∧ runs n u = .next t := by
  rw [runs] at h
  cases hs : step s with
  | next u => exact ⟨u, rfl, by simpa only [hs] using h⟩
  | fault f => simp [hs] at h
  | refused r => simp [hs] at h

/-- The duty history of a run that starts in any phase of ROT and in which it is in progress before the last step: drive
patterns, then one braking pattern exactly if ROT has ended (43_rotation_controller.md R119). -/
theorem runs_rot_dutyHist {cw speed : Byte} {angle : Word} {t : State} (n : Nat) {s : State} {ph : Phase} {w : Work}
    (hq : s.seq = some ⟨.rot cw speed angle, ph, w⟩) (h : runs n s = .next t)
    (hbusy : ∀ m u, m < n → runs m s = .next u → u.seq ≠ none) :
    ∃ k, t.dutyHist = s.dutyHist ++ (List.replicate k (driveEvents cw speed)).flatten ++
      (if t.seq = none then brakeEvents else []) := by
  induction n generalizing s ph w with
  | zero =>
    obtain rfl : s = t := by simpa only [runs, Host.Outcome.next.injEq] using h
    exact ⟨0, by simp [hq]⟩
  | succ n ih =>
    obtain ⟨u, hs, hu⟩ := runs_succ_cases h
    have hbusy' : ∀ m v, m < n → runs m u = .next v → v.seq ≠ none :=
      fun m v hm hv => hbusy (m + 1) v (Nat.succ_lt_succ hm) ((runs_succ hs m).trans hv)
    cases step_rot hq hs with
    | waits ph' w' hh hq' =>
      obtain ⟨k, hk⟩ := ih hq' hu hbusy'
      exact ⟨k, by rw [hk, hh]⟩
    | drives w' _ _ hh hq' =>
      obtain ⟨k, hk⟩ := ih hq' hu hbusy'
      exact ⟨k + 1, by rw [hk, hh, List.replicate_succ, List.flatten_cons, List.append_assoc s.dutyHist]⟩
    | brakes _ _ hh hend =>
      cases n with
      | zero =>
        obtain rfl : u = t := by simpa only [runs, Host.Outcome.next.injEq] using hu
        exact ⟨0, by simp [hh, hend]⟩
      | succ n => exact absurd hend (hbusy' 0 u (Nat.succ_pos n) rfl)

end Sys2Proof.Machine

/-! SUPPORT. The statements of 43_rotation_controller.md: PWMWR, ROT's acceptance and phases, its numbers, its timeout
and its duty history. -/

namespace Sys2Proof.Machine

/-- Settles O38, by whether `REACHED` or `TIMEOUT` holds and, when neither does, by the direction. -/
theorem rotDrivesOrBrakes : Obligations.RotDrivesOrBrakes := by
  intro s cw speed angle w hq
  rw [exec_rot_r3 hq]
  refine ⟨fun h => ?_, fun hr ht hcw => ?_, fun hr ht hcw => ?_⟩
  · rw [rotR3_brakes h, rotResult_eq]
    simp only [reached_iff, timedOut_iff]
    rfl
  · rw [rotR3_drives hr ht, drive_eq]
    simp only [if_pos hcw]
    rfl
  · rw [rotR3_drives hr ht, drive_eq]
    simp only [if_neg hcw]
    rfl

/-- Settles O39: the movement back is the negative of the movement, with the same absolute value. -/
theorem deltaIsTheMagnitudeOfTheMovement : Obligations.DeltaIsTheMagnitudeOfTheMovement := by
  intro start cur
  have hback : -(start - cur) = cur - start := neg_sub start cur
  constructor
  · rw [delta_eq_abs, toNat_abs_eq_natAbs_toInt]
  · rw [delta_eq_abs, delta_eq_abs, ← hback, abs_neg_word]

/-- Settles O40: the bounds are those of a quotient, and of its value at the largest angle. -/
theorem targetRoundsTheAngle : Obligations.TargetRoundsTheAngle := by
  intro angle
  have ha := angle.isLt
  have htarget := toNat_target angle
  refine ⟨htarget, ?_, ?_, ?_⟩ <;> omega

/-- Settles O41: R2 leaves the tick and `T0` alone, so R3 finds the time over. -/
theorem rotEndsOnceTheTimeoutHasPassed : Obligations.RotEndsOnceTheTimeoutHasPassed := by
  intro s cw speed angle w rest hq htime ha
  have hover := (timedOut_iff w.t0 s.tick).2 htime
  rw [runs_succ ((step_busy ha hq).trans (exec_rot_r2 hq)), runs_succ ((step_busy rfl rfl).trans (exec_rot_r3 rfl)),
    runs, rotR3_brakes (.inr (by exact htime))]
  exact ⟨_, _, rfl, rfl, rfl, rfl, rfl, rfl, (rotResult_timeout _ _).trans hover⟩

/-- Settles O58, by the cases of a step during ROT. -/
theorem rotStepDrivesBrakesOrWaits : Obligations.RotStepDrivesBrakesOrWaits := by
  intro s t cw speed angle ph w hq h
  cases step_rot hq h with
  | waits ph' w' hh hq' => exact .inl ⟨hh, ph', w', hq'⟩
  | drives w' hp hturn hh hq' => exact .inr (.inl ⟨hp, hturn, hh, w', hq'⟩)
  | brakes hp hturn hh hq' => exact .inr (.inr ⟨hp, hturn, hh, hq'⟩)

/-- Settles O42: phase R0 is one of the phases from which a run's duty history is known. -/
theorem rotDutyHistory : Obligations.RotDutyHistory := by
  intro n s t cw speed angle w hq h hbusy
  exact runs_rot_dutyHist n hq h hbusy

/-- Settles O17: the channel named is written before the response; the refusal is the one of every operand out of
range. -/
theorem pwmwrSetsOneDuty : Obligations.PwmwrSetsOneDuty := by
  intro s duty hq
  obtain ⟨-, -, -, -, -, hrefused⟩ := operandOutOfRangeAnswersIllegalOperand s hq
  exact ⟨exec_answered (i := .pwmwr 0#8 duty) hq rfl (by exact hq) fun _ h => h,
    exec_answered (i := .pwmwr 1#8 duty) hq rfl (by exact hq) fun _ h => h, fun ch hch => hrefused ch duty hch⟩

/-- Settles O37: the acceptance and each of the three phases lead to one state. -/
theorem rotLatchesItsSnapshots : Obligations.RotLatchesItsSnapshots := by
  intro s cw speed angle w
  refine ⟨fun hq hcw => ?_, fun hq => exec_advanced hq rfl fun _ h => h,
    fun hq => exec_advanced hq rfl fun _ h => h, exec_rot_r2⟩
  obtain ⟨t, ht, hacc⟩ := exec_accepted hq (rot_not_refused s.cfg hcw speed angle)
  exact ht.trans (congrArg _ hacc)

end Sys2Proof.Machine

/-! SUPPORT. The statement of 60_exceptions.md: no step from a state that meets the invariant stops. A turn stops only when
the operation in progress is in a phase that is not its own, and `SeqLegal` excludes that. -/

namespace Sys2Proof.Machine

/-- Every word presented to an idle block is answered or begun (30_encoding.md R56). -/
theorem present_next (w : CmdWord) {s : State} (hq : s.seq = none) : ∃ t, present w s = .next t := by
  unfold present
  cases decode w with
  | ok i => exact exec_idle_next i hq
  | error => exact ⟨_, rfl⟩

/-- `SEQ` is Idle, or an operation in one of its own phases (10_state.md R11). -/
def InOwnPhase (s : State) : Prop := ∀ p, s.seq = some p → hasPhase p.op p.ph = true

/-- A legal `SEQ` is in a phase of its operation. -/
theorem SeqLegal.inOwnPhase {s : State} (h : SeqLegal s) : InOwnPhase s := by
  intro p hp
  obtain ⟨-, hph, -⟩ := h p hp
  exact hph

/-- Choosing the turn leaves `SEQ` alone. -/
theorem nextTurn_seq (s : State) : (nextTurn s).2.seq = s.seq := by
  obtain ⟨ag, d, hs⟩ := nextTurn_state s
  rw [hs]

/-- The block moves on from each of its own phases, and from Idle whatever the port holds. -/
theorem blockMove_next {s : State} (h : InOwnPhase s) : ∃ t, blockMove s = .next t := by
  cases hq : s.seq with
  | some p =>
    rw [blockMove_busy hq]
    exact exec_advances hq (h p hq)
  | none =>
    cases hc : s.cmds with
    | nil => exact ⟨s, by rw [blockMove, hq, hc]⟩
    | cons w ws =>
      rw [blockMove_idle hq hc]
      exact present_next w (by exact hq)

/-- An event never stops, and the block does not from its own phases (60_exceptions.md R166). -/
theorem takeTurn_next (u : Turn) {s : State} (h : InOwnPhase s) : ∃ t, takeTurn u s = .next t := by
  cases u with
  | block => exact blockMove_next h
  | edge | tick | slave => exact ⟨_, rfl⟩

/-- Settles O47: the invariant keeps `SEQ` in a phase of its operation, and choosing the turn does not change `SEQ`. -/
theorem theBlockNeverStops : Obligations.TheBlockNeverStops := by
  intro s hi
  have hown : InOwnPhase (nextTurn s).2 := by
    rw [InOwnPhase, nextTurn_seq]
    exact hi.seqLegal.inOwnPhase
  exact takeTurn_next _ hown

end Sys2Proof.Machine

/-! SUPPORT. The statement of 70_reset_and_hazards.md: where a run ends. A run that ends is its end, or one step with a
response owed and then a run that ends; each fact below is an induction of that shape. -/

namespace Sys2Proof.Machine

/-- Nothing is owed exactly when `SEQ` is Idle and no command waits at the port. -/
theorem owed_eq_zero_iff (s : State) : owed s = 0 ↔ s.seq = none ∧ s.cmds = [] := by
  cases hq : s.seq <;> simp [owed, hq]

/-- A run with nothing owed ends where it starts. -/
theorem eq_of_endOf_done {n : Nat} {s t : State} (hs : owed s = 0) (h : endOf n s = some t) : s = t :=
  Option.some.inj ((endOf_done hs n).symm.trans h)

/-- The induction over a run that ends at `t` (70_reset_and_hazards.md R207). -/
theorem endOf_induction {t : State} {motive : (n : Nat) → (s : State) → endOf n s = some t → Prop}
    (done : ∀ (h : owed t = 0) (n : Nat), motive n t (endOf_done h n))
    (next : ∀ (n : Nat) (s u : State) (hs : owed s ≠ 0) (hstep : step s = .next u) (hu : endOf n u = some t),
      motive n u hu → motive (n + 1) s ((endOf_next hs n hstep).trans hu))
    (n : Nat) (s : State) (h : endOf n s = some t) : motive n s h := by
  induction n generalizing s with
  | zero =>
    by_cases hs : owed s = 0
    · obtain rfl := eq_of_endOf_done hs h
      exact done hs 0
    · simp [endOf, hs] at h
  | succ n ih =>
    by_cases hs : owed s = 0
    · obtain rfl := eq_of_endOf_done hs h
      exact done hs (n + 1)
    · cases hstep : step s with
      | fault | refused => simp [endOf, hs, hstep] at h
      | next u =>
        have hu : endOf n u = some t := (endOf_next hs n hstep).symm.trans h
        exact next n s u hs hstep hu (ih u hu)

section
variable {n : Nat} {s t : State} (h : endOf n s = some t)
include h

/-- At the end of a run nothing is owed. -/
theorem endOf_owed : owed t = 0 := by
  induction n, s, h using endOf_induction with
  | done ht => exact ht
  | next _ _ _ _ _ _ ih => exact ih

/-- A run that ends has given every response it owed (30_encoding.md R53). -/
theorem endOf_rsps_length : t.rsps.length = s.rsps.length + owed s := by
  induction n, s, h using endOf_induction with
  | done ht => rw [ht, Nat.add_zero]
  | next n s u _ hstep _ ih => exact ih.trans (step_account hstep)

/-- Allowing more steps does not move the end of a run. -/
theorem endOf_add (k : Nat) : endOf (n + k) s = some t := by
  induction n, s, h using endOf_induction with
  | done ht => exact endOf_done ht _
  | next n s u hs hstep _ ih =>
    rw [Nat.add_right_comm, endOf_next hs _ hstep]
    exact ih

/-- A run with a response owed reaches its end by a step that ends it, and every state before owes a response. -/
theorem endOf_lastStep (hs : owed s ≠ 0) : ∃ m u, m < n ∧ runs m s = .next u ∧ EndsAt u t ∧
    ∀ j v, j ≤ m → runs j s = .next v → owed v ≠ 0 := by
  induction n, s, h using endOf_induction with
  | done ht => exact absurd ht hs
  | next n s u _ hstep hu ih =>
    have hfirst : ∀ v, runs 0 s = .next v → owed v ≠ 0 := fun v hv => Host.Outcome.next.inj hv ▸ hs
    by_cases hus : owed u = 0
    · obtain rfl := eq_of_endOf_done hus hu
      exact ⟨0, s, n.succ_pos, rfl, ⟨hstep, hs, hus⟩, fun j v hj => Nat.le_zero.1 hj ▸ hfirst v⟩
    · obtain ⟨m, u', hm, hrun, hend, hbusy⟩ := ih hus
      refine ⟨m + 1, u', Nat.succ_lt_succ hm, (runs_succ hstep m).trans hrun, hend, fun j v hj hv => ?_⟩
      cases j with
      | zero => exact hfirst v hv
      | succ j => exact hbusy j v (Nat.le_of_succ_le_succ hj) ((runs_succ hstep j).symm.trans hv)

end

/-- The step that ends a run gives exactly one response. -/
theorem EndsAt.rsps_append {u t : State} (h : EndsAt u t) : ∃ r, t.rsps = u.rsps ++ [r] := by
  obtain ⟨hstep, hu, ht⟩ := h
  obtain ⟨haccount, more, hmore, hle⟩ := oneResponsePerCommand u t hstep
  have hone : more.length = 1 := by
    rw [hmore, List.length_append, ht] at haccount
    omega
  obtain ⟨r, rfl⟩ := List.length_eq_one_iff.1 hone
  exact ⟨r, hmore⟩

/-- Settles O57, by the last step of the run, which gives the response still owed, and the account of the whole run. -/
theorem runEndsAtTheLastResponse : Obligations.RunEndsAtTheLastResponse := by
  intro n s t hs h
  obtain ⟨m, u, hm, hrun, hend, hbusy⟩ := endOf_lastStep h hs
  obtain ⟨r, hr⟩ := hend.rsps_append
  obtain ⟨hseq, hcmds⟩ := (owed_eq_zero_iff t).1 (endOf_owed h)
  exact ⟨⟨m, u, r, hm, hrun, hend, hr, hbusy⟩, hseq, hcmds, endOf_rsps_length h, endOf_add h⟩

end Sys2Proof.Machine
